-- ==== Sys2Proof/Word.lean ====
section
/-! DEFINITION. The words of the SBT: a payload byte, a command word, a segment mask, a line level
(00_scope.md R8, R9, R10; 30_encoding.md R70; 43_wire_protocol.md R147). -/

namespace Sys2Proof

/-- The SBT's data path is 8 bits wide (R8). -/
abbrev Byte := BitVec 8

/-- A command word, `CMD[10:0]` (R70; `CMD_W` = 11, R7). -/
abbrev CmdWord := BitVec 11

/-- A segment mask, the 16-bit data of one digit position (R14, R147). -/
abbrev Mask := BitVec 16

/-- A line level: `false` is 0 (low), `true` is 1 (high) (R10). A level that may be ⊥ is an
`Option Level`, `none` being ⊥ (log 1). -/
abbrev Level := Bool

end Sys2Proof
end

