-- ==== Sys2Proof/Syntax.lean ====
section
/-! DEFINITION. The instructions, one constructor for each row of spec/opcode_table.json, and the two
formats a row's word can have (30_encoding.md R70, R72, R79, R81; 43_wire_protocol.md R141 to R143). -/

namespace Sys2Proof

/-- The operations of the SBT (format C11) and the payload mnemonics (format P8), each of which, as an
instruction, is the SEND of its byte (R79; log 6). -/
inductive Instr where
  /-- SEND v: transmit one byte, least significant bit first (R100). -/
  | send (v : Byte)
  /-- OPEN: drive the strobe line low (R110). -/
  | openFrame
  /-- CLOSE: drive the strobe line high (R111). -/
  | closeFrame
  /-- IDLE: every line to its idle level, DIO an output (R120). -/
  | idle
  /-- WAIT n: busy-wait for at least n µs, n in 0..255 (R121). -/
  | wait (n : Byte)
  /-- DATAMODE: the command byte 0x40 (R141). -/
  | dataMode
  /-- ADDR a: the command byte `0xC0 | a`, well formed for a in 0..15 (R142). -/
  | addr (a : Nat)
  /-- DISPCTL b: the command byte `0x88 | min(b, 7)`, well formed for b in 0..7 (R143, R79). -/
  | dispCtl (b : Nat)
  deriving DecidableEq, Repr

/-- A word of the opcode table in its format: `c11` is a command word of the port (R70), `p8` a payload
byte as the receiver reads it (R81). -/
inductive TableWord where
  | c11 (w : CmdWord)
  | p8 (b : Byte)
  deriving DecidableEq, Repr

/-- Why a word is no instruction. The first two are the `ILLEGAL` of `Decode` (R75, R76). -/
inductive DecodeError where
  /-- `OP` is 0b101, 0b110 or 0b111 (R72, R76). -/
  | reservedOp
  /-- OPEN, CLOSE or IDLE with a non-zero `IMM` (R74, R76). -/
  | immNotZero
  /-- A payload byte outside R141 to R143, which has no mnemonic (R146). -/
  | unlistedPayload
  /-- A number with more bits than its format has (R77). -/
  | tooWide
  deriving DecidableEq, Repr

end Sys2Proof
end

