-- ==== Sys2Proof/WellFormed.lean ====
section
/-! DEFINITION. Which instructions have an encoding (43_wire_protocol.md R142, R143; 90_conflicts.md C1).
The byte of SEND and the delay of WAIT are 8-bit fields and admit every value (R71, R81). -/

namespace Sys2Proof

/-- The operand ranges of the payload mnemonics. An address of 16 or more has no encoding, because it
would change the fixed bits 7:4 (R142, C1). The brightness field has 3 bits (R143). -/
def Instr.wellFormed : Instr → Bool
  | .send _ => true
  | .openFrame => true
  | .closeFrame => true
  | .idle => true
  | .wait _ => true
  | .dataMode => true
  | .addr a => decide (a < 16)
  | .dispCtl b => decide (b < 8)

end Sys2Proof
end

