-- ==== Sys2Proof/Decode.lean ====
section
/-! DEFINITION. The command word's fields, `Decode` of 30_encoding.md R75, the payload encodings of
43_wire_protocol.md R141 to R143, and the encoder. -/

namespace Sys2Proof

/-! ## Fields of a command word -/

/-- `OP = CMD[10:8]` (R70). -/
def opField (w : CmdWord) : BitVec 3 := w.extractLsb' 8 3

/-- `IMM = CMD[7:0]` (R70, R71). -/
def immField (w : CmdWord) : Byte := w.extractLsb' 0 8

/-- `CMD = {OP, IMM}` (R73). -/
def mkCommand (op : BitVec 3) (imm : Byte) : CmdWord := op ++ imm

/-! ## The opcode map (R72) -/

def opSend : BitVec 3 := 0b000#3
def opOpen : BitVec 3 := 0b001#3
def opClose : BitVec 3 := 0b010#3
def opIdle : BitVec 3 := 0b011#3
def opWait : BitVec 3 := 0b100#3

/-! ## Payload bytes -/

/-- The byte of DATAMODE (R141). -/
def dataModeByte : Byte := 0x40#8

/-- The byte of ADDR a, `0xC0 | a`; an encoding for a < 16 only (R142). -/
def addrByte (a : Nat) : Byte := 0xC0#8 ||| BitVec.ofNat 8 a

/-- The brightness clamp `min(r, 7)` (R145). -/
def clampBrightness (r : Nat) : Nat := min r 7

/-- The byte of DISPCTL b, `0x80 | 0x08 | min(b, 7)` (R143, R79). -/
def dispCtlByte (b : Nat) : Byte := 0x80#8 ||| 0x08#8 ||| BitVec.ofNat 8 (clampBrightness b)

/-! ## Decoding -/

/-- `Decode` (R75), an error being `ILLEGAL` with its reason (R76). -/
def decodeCommand (w : CmdWord) : Except DecodeError Instr :=
  let op := opField w
  let imm := immField w
  if op = opSend then .ok (.send imm)
  else if op = opOpen then (if imm = 0#8 then .ok .openFrame else .error .immNotZero)
  else if op = opClose then (if imm = 0#8 then .ok .closeFrame else .error .immNotZero)
  else if op = opIdle then (if imm = 0#8 then .ok .idle else .error .immNotZero)
  else if op = opWait then .ok (.wait imm)
  else .error .reservedOp

/-- The mnemonic of a payload byte: `0b0100_0000`, `0b1100_aaaa` or `0b1000_1bbb` (R141 to R143); every
other byte has none (R146). -/
def decodePayload (b : Byte) : Except DecodeError Instr :=
  if b = dataModeByte then .ok .dataMode
  else if b.extractLsb' 4 4 = 0b1100#4 then .ok (.addr (b.extractLsb' 0 4).toNat)
  else if b.extractLsb' 3 5 = 0b10001#5 then .ok (.dispCtl (b.extractLsb' 0 3).toNat)
  else .error .unlistedPayload

/-- The instruction of a word of the opcode table, in either format. -/
def decode : TableWord → Except DecodeError Instr
  | .c11 w => decodeCommand w
  | .p8 b => decodePayload b

/-- A number laid out in a format of the table: one byte is a payload byte (P8), anything longer a
command word (C11), whose bits above bit 10 must be 0 (R70, R77; log 6). -/
def tableWord (nbits w : Nat) : Except DecodeError TableWord :=
  if nbits ≤ 8 then (if w < 256 then .ok (.p8 (BitVec.ofNat 8 w)) else .error .tooWide)
  else if w < 2048 then .ok (.c11 (BitVec.ofNat 11 w)) else .error .tooWide

/-- The instruction the decoder reads from a word numbered as spec/opcode_table.json numbers it. -/
def decodeTableWord (nbits w : Nat) : Option Instr :=
  match tableWord nbits w with
  | .error _ => none
  | .ok t =>
    match decode t with
    | .ok i => some i
    | .error _ => none

/-! ## Encoding -/

/-- The word of an instruction, in the format of its row (R72, R141 to R143). -/
def encode : Instr → TableWord
  | .send v => .c11 (mkCommand opSend v)
  | .openFrame => .c11 (mkCommand opOpen 0#8)
  | .closeFrame => .c11 (mkCommand opClose 0#8)
  | .idle => .c11 (mkCommand opIdle 0#8)
  | .wait n => .c11 (mkCommand opWait n)
  | .dataMode => .p8 dataModeByte
  | .addr a => .p8 (addrByte a)
  | .dispCtl b => .p8 (dispCtlByte b)

/-- The command a table word is to the client: a payload byte is carried by the SEND of it (R79, R81). -/
def TableWord.command : TableWord → CmdWord
  | .c11 w => w
  | .p8 b => mkCommand opSend b

/-- The command word the client issues for an instruction. -/
def Instr.command (i : Instr) : CmdWord := (encode i).command

/-- The SBT operation an instruction is: `DATAMODE` is `SEND 0x40`, `ADDR a` is `SEND 0xC0 | a`,
`DISPCTL b` is `SEND 0x88 | min(b, 7)` (R79). -/
def Instr.operation : Instr → Instr
  | .send v => .send v
  | .openFrame => .openFrame
  | .closeFrame => .closeFrame
  | .idle => .idle
  | .wait n => .wait n
  | .dataMode => .send dataModeByte
  | .addr a => .send (addrByte a)
  | .dispCtl b => .send (dispCtlByte b)

end Sys2Proof
end

