-- ==== Sys2Proof/Config.lean ====
section
/-! DEFINITION. The parameters of 00_scope.md R7, and the values the spec leaves open, each a constant
without a body. -/

namespace Sys2Proof

/-- The timing parameters, which the shared operations take as an argument (R7; log 21). -/
structure Params where
  /-- `T_BIT`, the dwell in µs after the data write and after the rising clock edge. -/
  tBit : Nat
  /-- `T_INIT`, the delay in µs between IDLE and the first OPEN. -/
  tInit : Nat
  /-- `T_STB_SETUP`, the delay in µs the SBT puts between an STB edge and the next CLK edge. -/
  tStbSetup : Nat
  deriving DecidableEq, Repr

namespace Config

/-- The values this hardware takes: `T_BIT` = 1, `T_INIT` = 10 and `T_STB_SETUP` = 0 (R7). -/
def hardware : Params where
  tBit := 1
  tInit := 10
  tStbSetup := 0

/-- `BLANK`, the Font Table's blank mask: OPEN (R7, D22; log 14). -/
opaque blank : Mask

/-- The Font Table's `lookup`, from a character code: a parameter of the client (R160, D22; log 14). -/
opaque lookup : Nat → Mask

/-- `PIN_LATENCY`: the time, in ticks, that the pin write or direction change standing at this position
of TRACE takes, up to the start of the next event: any value, no upper bound (R7, D7; log 11). -/
opaque pinLatency : Nat → Nat

/-- How many ticks longer than requested the delay standing at this position of TRACE lasts: any value
(42_control.md R122; log 11). -/
opaque delayExcess : Nat → Nat

/-- The time, in ticks, from a reset standing at this position of TRACE to the next event: any value
(log 11). -/
opaque resetTicks : Nat → Nat

/-- One less than the number of ticks in a microsecond (log 11). -/
opaque tickResolution : Nat

/-- The number of ticks in a microsecond: any positive number (log 11). -/
def ticksPerMicro : Nat := tickResolution + 1

/-- `T_STB_HIGH_MIN`, in ticks: OPEN, and not enforced by the SBT (R7, R202, D16; log 18). -/
opaque tStbHighMin : Nat

/-- The delay, in ticks, that the receiver needs between an STB edge and the next CLK edge: a parameter, and
not enforced by the SBT (70_reset_and_hazards.md R203; log 18). -/
opaque tStbSetupMin : Nat

/-- `RX_OVERFLOW`: what the receiver does with a byte whose address is past 15, given as the cells it
then writes: OPEN (D27, 43_wire_protocol.md R148; log 16). -/
opaque rxOverflow : Nat → Byte → List (Nat × Byte)

end Config

end Sys2Proof
end

