-- ==== Sys2Proof/Machine/State.lean ====
section
/-! DEFINITION. The SBT's state (10_state.md R20 to R37), the reasons a step can stop, and the reset state. -/

namespace Sys2Proof.Machine

/-- The three output lines (00_scope.md R1, R8). -/
inductive Line where
  | stb
  | clk
  | dio
  deriving DecidableEq, Repr

/-- An entry of TRACE (00_scope.md R11, R15; 70_reset_and_hazards.md R193). -/
inductive Event where
  /-- `W(L, v)`: line L is written with v. -/
  | write (l : Line) (v : Level)
  /-- `Dir(DIO, OUT)`: DIO is made an output. -/
  | dirDioOut
  /-- `T(n)`: a delay of at least n µs. -/
  | delay (n : Nat)
  /-- `Rst`: a reset during the run. -/
  | rst
  deriving DecidableEq, Repr

/-- The values of the phase register `PH` (R26). -/
inductive Phase where
  | ready
  | bClkLo
  | bData
  | bWLo
  | bClkHi
  | bWHi
  | fOpen
  | fClose
  | iStb
  | iClk
  | iDio
  | iDir
  | wDly
  | faulted
  deriving DecidableEq, Repr

/-- What `FCODE` holds (60_exceptions.md R170). -/
inductive FaultCode where
  /-- 0b00: no fault taken. -/
  | none
  /-- 0b01, `F_NOINIT` (R172). -/
  | noInit
  /-- 0b10, `F_SETTLE` (R173). -/
  | settle
  /-- 0b11, `F_ILLEGAL` (R177). -/
  | illegal
  deriving DecidableEq, Repr

/-- Why the machine stops without a next state. The three faults of the SBT are not here: taking one is
a next state (R175). -/
inductive Fault where
  /-- `PH = FAULTED`, and no reset is still to come: no agent has a step (R27, R176). Raised by the step
  of the system. Safe: the spec gives no step here (log 9). -/
  | stuckFaulted
  /-- A rule read a ⊥ value (00_scope.md R10, 60_exceptions.md R171). Raised by the phases that read
  `SR`, `CNT` or `CMDL` and by fault entry; no reachable state raises it. Safe (log 1). -/
  | readUnspecified
  deriving DecidableEq, Repr

/-- Why something is given no meaning. -/
inductive Refusal where
  /-- An instruction whose meaning is not written. Raised by `exec` alone. Safe. -/
  | notModelled (mnemonic : String)
  /-- The run has ended: `PH = READY`, the client has no command left and no reset is still to come
  (70_reset_and_hazards.md R197). Raised by the step of the system. Safe: the spec gives no step (log 9). -/
  | runEnded
  /-- `ADDR a` with a ≥ 16, which has no encoding (43_wire_protocol.md R142). Raised by the meaning of
  ADDR on an instruction that is not well formed. Safe (log 7). -/
  | addressHasNoEncoding
  /-- A negative brightness request (43_wire_protocol.md R145). Raised by the client's SET_POWER. Safe
  (log 15). -/
  | negativeBrightness
  /-- A frame of no value, or of more values than digits (44_client_sequences.md R154). Raised by the
  client's WRITE_FRAME. Safe (log 15). -/
  | frameLengthNotAdmitted
  /-- A digit count outside 1..16 (00_scope.md R7). Raised by every client sequence. Safe (log 15). -/
  | digitCountNotAdmitted
  deriving DecidableEq, Repr

/-- The system's state: the SBT's (R21 to R31), and its two inputs as lists still to come (R33). `none`
in an `Option` field is the spec's own ⊥ (R10, R37; log 1). -/
structure State where
  /-- `line[STB]` (R21). -/
  stb : Option Level
  /-- `line[CLK]` (R22). -/
  clk : Option Level
  /-- `line[DIO]` (R23). -/
  dio : Option Level
  /-- `DIO_OE`: `true` is output (R23). -/
  dioOe : Option Bool
  /-- `SR`, the shift register (R24). -/
  sr : Option Byte
  /-- `CNT`, the number of bits of the current SEND already completed (R25). -/
  cnt : Option (BitVec 4)
  /-- `CMDL`, the latched command word (R28). -/
  cmdl : Option CmdWord
  /-- `PH`, the phase register (R26). -/
  ph : Phase
  /-- `INIT`: an IDLE has completed since the last reset (R29). -/
  init : Bool
  /-- `SETTLE`: µs of delay since the last IDLE, saturating at `T_INIT` (R29). -/
  settle : Nat
  /-- `FAULT` (R31). -/
  fault : Bool
  /-- `FCODE` (R31). -/
  fcode : FaultCode
  /-- `FCMD`: the command word whose acceptance faulted (R31). -/
  fcmd : CmdWord
  /-- `TRACE`, oldest first (R30). -/
  trace : List Event
  /-- The command words the client has still to issue, the next one first (R27, R80; log 2). -/
  prog : List CmdWord
  /-- The input `RST` at the coming steps, the next one first; 0 when the list has run out (R190, R192;
  log 3). -/
  rst : List Bool
  deriving DecidableEq, Repr

/-- The state at the start of a run (R37, R192): no command given and no reset to come (log 2, log 3). -/
def State.reset : State where
  stb := none
  clk := none
  dio := none
  dioOe := none
  sr := none
  cnt := none
  cmdl := none
  ph := .ready
  init := false
  settle := 0
  fault := false
  fcode := .none
  fcmd := 0#11
  trace := []
  prog := []
  rst := []

/-- The outcome type of every meaning. -/
abbrev Result := Host.Outcome State Fault Refusal

end Sys2Proof.Machine
end

