-- ==== Sys2Proof/Machine/Operands.lean ====
section
/-! DEFINITION. The operand forms: what a phase reads from `SR`, `CNT` and `CMDL`
(10_state.md R24, R25, R28; 40_serializer.md R104). -/

namespace Sys2Proof.Machine

/-- `SR[0]`, the bit put on DIO (R100, R104). -/
def lowBit (v : Byte) : Level := v.getLsbD 0

/-- `SR >> 1`: a logical shift, zero enters bit 7 (R9, R104). -/
def shiftRight (v : Byte) : Byte := v >>> 1

/-- Whether CNT says that the SEND is complete (R25). -/
def sendComplete (c : BitVec 4) : Bool := decide (8 ≤ c.toNat)

/-- `CMDL[7:0]` as a number of µs, the operand of WAIT (R28, R121). -/
def waitOperand (w : CmdWord) : Nat := (immField w).toNat

end Sys2Proof.Machine
end

