-- ==== Sys2Proof/Machine/Ops.lean ====
section
/-! DEFINITION. The shared operations: the primitives of 00_scope.md R11, acceptance, fault entry
(60_exceptions.md R174, R175) and reset (70_reset_and_hazards.md R190). -/

namespace Sys2Proof.Machine

/-! ## Lines and events -/

/-- `line[L]` (R10). -/
def State.line (s : State) : Line → Option Level
  | .stb => s.stb
  | .clk => s.clk
  | .dio => s.dio

/-- `line[L] <- v` (R11). -/
def State.setLine (s : State) : Line → Level → State
  | .stb, v => { s with stb := some v }
  | .clk, v => { s with clk := some v }
  | .dio, v => { s with dio := some v }

/-- Append one event to TRACE, which is append-only (R30). -/
def State.emit (s : State) (e : Event) : State := { s with trace := s.trace ++ [e] }

/-- `PinWrite(L, v)` (R11). -/
def pinWrite (l : Line) (v : Level) (s : State) : State := (s.setLine l v).emit (.write l v)

/-- `PinDir(DIO, OUT)` (R11). -/
def pinDirOut (s : State) : State := State.emit { s with dioOe := some true } .dirDioOut

/-- `Delay(n)`: one `T(n)` event, and `SETTLE <- min(SETTLE + n, T_INIT)` (R11, R29). -/
def delay (p : Params) (n : Nat) (s : State) : State :=
  State.emit { s with settle := min (s.settle + n) p.tInit } (.delay n)

/-- The delay `T_STB_SETUP` after a write of STB; at 0, this hardware's value, the SBT inserts none, not even
`T(0)` (00_scope.md R7, 70_reset_and_hazards.md R203; log 21). -/
def stbSetup (p : Params) (s : State) : State :=
  if p.tStbSetup = 0 then s else delay p p.tStbSetup s

/-- A write of STB, with the setup delay after it (R203). -/
def strobeWrite (p : Params) (v : Level) (s : State) : State := stbSetup p (pinWrite .stb v s)

/-- `PH <- ph`. -/
def State.goto (s : State) (ph : Phase) : State := { s with ph := ph }

/-! ## Faults -/

/-- The four writes of fault entry, `w` being the value of `CMDL` (R175). -/
def enterFault (code : FaultCode) (w : CmdWord) (s : State) : State :=
  { s with fault := true, fcode := code, fcmd := w, ph := .faulted }

/-- Fault entry, `raise Fault(code)` (R175). `FCMD <- CMDL` reads `CMDL`, which acceptance has written;
from a ⊥ `CMDL` it stops (R171). -/
def takeFault (code : FaultCode) (s : State) : Result :=
  match s.cmdl with
  | none => .fault .readUnspecified
  | some w => .next (enterFault code w s)

/-! ## Acceptance -/

/-- `CMDL <- cmd` (R27, R174). -/
def latch (w : CmdWord) (s : State) : State := { s with cmdl := some w }

/-- The check of `INIT`, the second of R174. -/
def requireInit (s : State) (go : State → Result) : Result :=
  if s.init then go s else takeFault .noInit s

/-- The check of `SETTLE`, the third of R174. -/
def requireSettled (p : Params) (s : State) (go : State → Result) : Result :=
  if s.settle < p.tInit then takeFault .settle s else go s

/-- SEND's acceptance action: `SR <- v`, `CNT <- 0`, `PH <- B_CLKLO` (R100). -/
def startSend (v : Byte) (s : State) : State :=
  { s with sr := some v, cnt := some 0#4, ph := .bClkLo }

/-- Acceptance of the command word SEND v (R100, R174). -/
def acceptSend (v : Byte) (s : State) : Result :=
  requireInit (latch (mkCommand opSend v) s) fun t => .next (startSend v t)

/-- Acceptance of OPEN (R110, R174). -/
def acceptOpen (p : Params) (s : State) : Result :=
  requireInit (latch (mkCommand opOpen 0#8) s) fun t =>
    requireSettled p t fun u => .next (u.goto .fOpen)

/-- Acceptance of CLOSE (R111, R174). -/
def acceptClose (s : State) : Result :=
  requireInit (latch (mkCommand opClose 0#8) s) fun t => .next (t.goto .fClose)

/-- Acceptance of IDLE, which needs no `INIT` (R120, R172). -/
def acceptIdle (s : State) : Result := .next ((latch (mkCommand opIdle 0#8) s).goto .iStb)

/-- Acceptance of WAIT n: n stays in `CMDL[7:0]` (R121). -/
def acceptWait (n : Byte) (s : State) : Result :=
  .next ((latch (mkCommand opWait n) s).goto .wDly)

/-- Acceptance of a word that `Decode` gives no operation: `F_ILLEGAL`, the first check of R174 (R177). -/
def acceptIllegal (w : CmdWord) (s : State) : Result := takeFault .illegal (latch w s)

/-! ## Reset -/

/-- A reset (R190, R193): every register at its value in R37, `Rst` appended to TRACE, the client's
commands left as they are (log 4). It is the only way out of `FAULTED` (R180). -/
def applyReset (s : State) : State :=
  { State.reset with trace := s.trace ++ [.rst], prog := s.prog, rst := s.rst }

end Sys2Proof.Machine
end

