-- ==== Sys2Proof/Machine/Control.lean ====
section
/-! DEFINITION. Line control and delay (42_control.md): the meanings of IDLE and WAIT and their phases. -/

namespace Sys2Proof.Machine

/-- IDLE: its acceptance (R120). -/
def execIdle (s : State) : Result := acceptIdle s

/-- WAIT n: its acceptance (R121). -/
def execWait (n : Byte) (s : State) : Result := acceptWait n s

/-- `I_STB`: `PinWrite(STB, 1)`. -/
def phaseIdleStb (p : Params) (s : State) : Result := .next ((strobeWrite p true s).goto .iClk)

/-- `I_CLK`: `PinWrite(CLK, 1)`. -/
def phaseIdleClk (s : State) : Result := .next ((pinWrite .clk true s).goto .iDio)

/-- `I_DIO`: `PinWrite(DIO, 1)`. -/
def phaseIdleDio (s : State) : Result := .next ((pinWrite .dio true s).goto .iDir)

/-- The end of IDLE: `INIT <- 1`, `SETTLE <- 0`, `PH <- READY` (R120). -/
def endIdle (s : State) : State := { s with init := true, settle := 0, ph := .ready }

/-- `I_DIR`: `PinDir(DIO, OUT)`, then `INIT <- 1`, `SETTLE <- 0` in the same step. -/
def phaseIdleDir (s : State) : Result := .next (endIdle (pinDirOut s))

/-- `W_DLY`: `Delay(CMDL[7:0])`. -/
def phaseWait (p : Params) (s : State) : Result :=
  match s.cmdl with
  | none => .fault .readUnspecified
  | some w => .next ((delay p (waitOperand w) s).goto .ready)

/-- The four events of IDLE, in order (R120). -/
def idleEvents : List Event := [.write .stb true, .write .clk true, .write .dio true, .dirDioOut]

end Sys2Proof.Machine
end

