-- ==== Sys2Proof/Machine/Serializer.lean ====
section
/-! DEFINITION. The byte serializer (40_serializer.md): the meaning of SEND and its five phases. -/

namespace Sys2Proof.Machine

/-- SEND v: its acceptance (R100). The 40 events follow, one a step, through the phases below. -/
def execSend (v : Byte) (s : State) : Result := acceptSend v s

/-- `B_CLKLO`: `PinWrite(CLK, 0)`. -/
def phaseClkLo (s : State) : Result := .next ((pinWrite .clk false s).goto .bData)

/-- `B_DATA`: `PinWrite(DIO, SR[0])`. -/
def phaseData (s : State) : Result :=
  match s.sr with
  | none => .fault .readUnspecified
  | some v => .next ((pinWrite .dio (lowBit v) s).goto .bWLo)

/-- `B_WLO`: `Delay(T_BIT)`. -/
def phaseWLo (p : Params) (s : State) : Result := .next ((delay p p.tBit s).goto .bClkHi)

/-- `B_CLKHI`: `PinWrite(CLK, 1)`. -/
def phaseClkHi (s : State) : Result := .next ((pinWrite .clk true s).goto .bWHi)

/-- The end of a bit: `SR <- SR >> 1`, `CNT <- CNT + 1`, and `READY` when CNT becomes 8 (R25, R26). -/
def endBit (v : Byte) (c : BitVec 4) (s : State) : State :=
  { s with
    sr := some (shiftRight v)
    cnt := some (c + 1#4)
    ph := if sendComplete (c + 1#4) then .ready else .bClkLo }

/-- `B_WHI`: `Delay(T_BIT)`, then `SR <- SR >> 1`, `CNT <- CNT + 1` in the same step
(R26). -/
def phaseWHi (p : Params) (s : State) : Result :=
  match s.sr, s.cnt with
  | some v, some c => .next (endBit v c (delay p p.tBit s))
  | _, _ => .fault .readUnspecified

/-- `SendEvents(v)`: the 40 events of a completed SEND (R101). -/
def sendEvents (p : Params) (v : Byte) : List Event :=
  (List.range 8).flatMap fun i =>
    [.write .clk false, .write .dio (v.getLsbD i), .delay p.tBit, .write .clk true, .delay p.tBit]

end Sys2Proof.Machine
end

