-- ==== Sys2Proof/Machine/Framer.lean ====
section
/-! DEFINITION. The transaction framer (41_framer.md): the meanings of OPEN and CLOSE, their phases, and
the transaction wrapper TXN. -/

namespace Sys2Proof.Machine

/-- OPEN: its acceptance, for given timing parameters (R110). -/
def execOpenWith (p : Params) (s : State) : Result := acceptOpen p s

/-- OPEN at this hardware's parameters (R110, 00_scope.md R7). -/
def execOpen (s : State) : Result := execOpenWith Config.hardware s

/-- CLOSE: its acceptance (R111). -/
def execClose (s : State) : Result := acceptClose s

/-- `F_OPEN`: `PinWrite(STB, 0)`. -/
def phaseOpen (p : Params) (s : State) : Result := .next ((strobeWrite p false s).goto .ready)

/-- `F_CLOSE`: `PinWrite(STB, 1)`. -/
def phaseClose (p : Params) (s : State) : Result := .next ((strobeWrite p true s).goto .ready)

/-- `TXN b1, ..., bk`: OPEN, one SEND for each byte, CLOSE (R112, R79). -/
def txn (bs : List Byte) : List Instr := .openFrame :: (bs.map .send ++ [.closeFrame])

/-- `TxnEvents(b1..bk)` (R113). -/
def txnEvents (p : Params) (bs : List Byte) : List Event :=
  .write .stb false :: (bs.flatMap (sendEvents p) ++ [.write .stb true])

end Sys2Proof.Machine
end

