-- ==== Sys2Proof/Machine/Payload.lean ====
section
/-! DEFINITION. The payload mnemonics as instructions (30_encoding.md R79, R81), each the SEND of its byte,
and the payload of frames and masks (43_wire_protocol.md R144, R147). -/

namespace Sys2Proof.Machine

/-- DATAMODE is SEND 0x40 (R79, R141). -/
def execDataMode (s : State) : Result := acceptSend dataModeByte s

/-- ADDR a is SEND `0xC0 | a` (R79, R142). An address of 16 or more has no encoding and is refused
(log 7). -/
def execAddr (a : Nat) (s : State) : Result :=
  if a < 16 then acceptSend (addrByte a) s else .refused .addressHasNoEncoding

/-- DISPCTL b is SEND `0x88 | min(b, 7)` (R79, R143). -/
def execDispCtl (b : Nat) (s : State) : Result := acceptSend (dispCtlByte b) s

/-- `m[7:0]` (R53). -/
def maskLow (m : Mask) : Byte := m.extractLsb' 0 8

/-- `m[15:8]` (R53). -/
def maskHigh (m : Mask) : Byte := m.extractLsb' 8 8

/-- A mask on the wire: low byte, then high byte (R53, R144). -/
def maskBytes (m : Mask) : List Byte := [maskLow m, maskHigh m]

/-- A 16-bit value seen on the wire is `{second byte, first byte}` (R54). -/
def maskOfBytes (lo hi : Byte) : Mask := hi ++ lo

/-- The payload of a single-command frame: `[c]` (R144). -/
def singleCommandFrame (c : Byte) : List Byte := [c]

/-- The payload of a multi-byte data frame: the address byte, then each mask, low byte first (R144). -/
def dataFrame (a : Nat) (ms : List Mask) : List Byte := addrByte a :: ms.flatMap maskBytes

/-- Segment k of A..N, bits 0 to 13 of a mask (R147). -/
def segmentMask (k : Fin 14) : Mask := 1#16 <<< k.val

/-- Bit 15: the decimal point, or the auxiliary indicator (R147). -/
def indicatorMask : Mask := 0x8000#16

end Sys2Proof.Machine
end

