-- ==== Sys2Proof/Machine/Dispatch.lean ====
section
/-! DEFINITION. The meaning of an instruction: its acceptance at the command port (10_state.md R27,
60_exceptions.md R174; log 5). -/

namespace Sys2Proof.Machine

def exec (i : Instr) (s : State) : Host.Outcome State Fault Refusal :=
  match i with
  | .send v => Sys2Proof.Machine.execSend v s
  | .openFrame => Sys2Proof.Machine.execOpen s
  | .closeFrame => Sys2Proof.Machine.execClose s
  | .idle => Sys2Proof.Machine.execIdle s
  | .wait n => Sys2Proof.Machine.execWait n s
  | .dataMode => Sys2Proof.Machine.execDataMode s
  | .addr a => Sys2Proof.Machine.execAddr a s
  | .dispCtl b => Sys2Proof.Machine.execDispCtl b s

end Sys2Proof.Machine
end

