-- ==== Sys2Proof/Machine/System.lean ====
section
/-! DEFINITION. The step of the system, client and SBT together (10_state.md R27), the reset input
(70_reset_and_hazards.md R190, R192), and how a command is put before the machine. -/

namespace Sys2Proof.Machine

/-- The SBT's step in a phase of an operation: the event R26 gives for the phase. `READY` and `FAULTED`
have no event. -/
def perform (p : Params) (s : State) : Result :=
  match s.ph with
  | .ready => .next s
  | .bClkLo => phaseClkLo s
  | .bData => phaseData s
  | .bWLo => phaseWLo p s
  | .bClkHi => phaseClkHi s
  | .bWHi => phaseWHi p s
  | .fOpen => phaseOpen p s
  | .fClose => phaseClose p s
  | .iStb => phaseIdleStb p s
  | .iClk => phaseIdleClk s
  | .iDio => phaseIdleDio s
  | .iDir => phaseIdleDir s
  | .wDly => phaseWait p s
  | .faulted => .next s

/-- The execution of an instruction for given timing parameters (00_scope.md R7). OPEN's acceptance is the
only one that reads one; at this hardware's values this is `exec`. -/
def execWith (p : Params) (i : Instr) (s : State) : Result :=
  match i with
  | .send v => exec (.send v) s
  | .openFrame => execOpenWith p s
  | .closeFrame => exec .closeFrame s
  | .idle => exec .idle s
  | .wait n => exec (.wait n) s
  | .dataMode => exec .dataMode s
  | .addr a => exec (.addr a) s
  | .dispCtl b => exec (.dispCtl b) s

/-- Acceptance of a command word (R27, R75, R174): decode it, and take `F_ILLEGAL` or run the
operation's acceptance. -/
def acceptWord (p : Params) (w : CmdWord) (s : State) : Result :=
  match decodeCommand w with
  | .ok i => execWith p i s
  | .error _ => acceptIllegal w s

/-- One step while `RST = 0`. Where no agent has a step (R27), the state stays while a sample of `RST`
is still to come, and otherwise the run has ended or is stuck (log 9). -/
def advance (p : Params) (s : State) : Result :=
  match s.ph with
  | .ready =>
    match s.prog with
    | w :: ws => acceptWord p w { s with prog := ws }
    | [] => if s.rst.isEmpty then .refused .runEnded else .next s
  | .faulted => if s.rst.isEmpty then .fault .stuckFaulted else .next s
  | _ => perform p s

/-- One step, for given timing parameters: the sample of `RST` is taken, then either the reset is applied
(R190) or the system moves (R27). -/
def systemStep (p : Params) (s : State) : Result :=
  match s.rst with
  | [] => advance p s
  | true :: r => .next (applyReset { s with rst := r })
  | false :: r => advance p { s with rst := r }

/-- Put a command word before the machine so that the next step accepts it: it is the client's next
command, `PH` is `READY`, and no reset is applied at that step (log 20). -/
def present (w : CmdWord) (s : State) : State :=
  { s with
    prog := w :: s.prog
    ph := .ready
    rst := match s.rst with
      | [] => []
      | _ :: r => false :: r }

/-- The command word of a number of the opcode table: a payload byte becomes the SEND of it (R79). -/
def tableCommand (nbits w : Nat) : CmdWord :=
  if nbits ≤ 8 then TableWord.command (.p8 (BitVec.ofNat 8 w))
  else TableWord.command (.c11 (BitVec.ofNat 11 w))

/-- Load a program for the client to issue (log 2). -/
def load (is : List Instr) (s : State) : State := { s with prog := is.map Instr.command }

end Sys2Proof.Machine
end

