-- ==== Sys2Proof/Machine/Step.lean ====
section
/-! DEFINITION. The step function, and the placing of an instruction where it takes its next one. -/

namespace Sys2Proof.Machine

/-- One step of the system at this hardware's parameters (10_state.md R27): a reset, an acceptance, or one
event. -/
def step (s : State) : Host.Outcome State Fault Refusal := systemStep Config.hardware s

/-- `s` with the table's word as the client's next command, ready to be accepted (log 20). -/
def State.withFetchWord (s : State) (nbits w : Nat) : State := present (tableCommand nbits w) s

end Sys2Proof.Machine
end

