-- ==== Sys2Proof/Machine/Assembler.lean ====
section
/-! DEFINITION. The assembler syntax (30_encoding.md R78) and the pseudo-instructions TXN, DATAMODE, ADDR
and DISPCTL (R79). A line is a list of characters; `none` is an assembly error (log 17). -/

namespace Sys2Proof.Machine.Asm

/-- A lexical unit of a line: a word, a comma, or a character in single quotes. -/
inductive Token where
  | word (cs : List Char)
  | comma
  | quoted (c : Char)
  deriving DecidableEq, Repr

/-- The single quote. -/
def isQuote (c : Char) : Bool := c.toNat == 39

/-- Put a character in front of the first word of the tokens, or begin a word. -/
def joinWord (c : Char) : List Token → List Token
  | .word cs :: ts => .word (c :: cs) :: ts
  | ts => .word [c] :: ts

/-- Whether the character ends a word. A quote does, so no white space is needed between a mnemonic and a
quoted character (log 17: R78 does not say). -/
def isBreak (c : Char) : Bool := c.isWhitespace || c == ',' || c == ';' || isQuote c

/-- The tokens of a line up to its comment; a lone quote is an error. A `;` between two single quotes is the
quoted character, and any other `;` starts the comment (log 17: R78 leaves open which of the two it is). The
second argument is the number of characters already used by the token before. -/
def tokens : List Char → Nat → Option (List Token)
  | [], _ => some []
  | _ :: cs, k + 1 => tokens cs k
  | c :: cs, 0 =>
    if c = ';' then some []
    else if c = ',' then (tokens cs 0).map (.comma :: ·)
    else if c.isWhitespace then tokens cs 0
    else if isQuote c then
      match cs with
      | x :: q :: _ => if isQuote q then (tokens cs 2).map (.quoted x :: ·) else none
      | _ => none
    else
      match cs with
      | [] => some [.word [c]]
      | d :: _ =>
        if isBreak d then (tokens cs 0).map (.word [c] :: ·)
        else (tokens cs 0).map (joinWord c)

/-- The value of a decimal digit. -/
def decDigit (c : Char) : Option Nat :=
  if '0' ≤ c ∧ c ≤ '9' then some (c.toNat - 48) else none

/-- The value of a hex digit, in either case. -/
def hexDigit (c : Char) : Option Nat :=
  if '0' ≤ c ∧ c ≤ '9' then some (c.toNat - 48)
  else if 'a' ≤ c ∧ c ≤ 'f' then some (c.toNat - 87)
  else if 'A' ≤ c ∧ c ≤ 'F' then some (c.toNat - 55)
  else none

/-- A number in a base, most significant digit first, after the value read so far. -/
def digits (base : Nat) (digit : Char → Option Nat) : List Char → Nat → Option Nat
  | [], n => some n
  | c :: cs, n =>
    match digit c with
    | none => none
    | some d => digits base digit cs (n * base + d)

/-- A number: decimal, or hex after `0x`. -/
def number : List Char → Option Nat
  | [] => none
  | '0' :: 'x' :: [] => none
  | '0' :: 'x' :: cs => digits 16 hexDigit cs 0
  | cs => digits 10 decDigit cs 0

/-- `<imm8>`: a number or the code of a quoted character (log 17), 0..255; anything else is an error, not
a wrapped value (R78). -/
def imm8 : Token → Option Byte
  | .comma => none
  | .quoted c => if c.toNat < 256 then some (BitVec.ofNat 8 c.toNat) else none
  | .word cs =>
    match number cs with
    | none => none
    | some n => if n < 256 then some (BitVec.ofNat 8 n) else none

/-- The bytes of TXN, separated by commas (R79). -/
def immList : List Token → Option (List Byte)
  | [] => none
  | [t] => (imm8 t).map ([·])
  | t :: .comma :: ts =>
    match imm8 t, immList ts with
    | some b, some bs => some (b :: bs)
    | _, _ => none
  | _ :: _ :: _ => none

/-- A letter in upper case: mnemonics are case-insensitive (R78). -/
def upper (cs : List Char) : List Char := cs.map Char.toUpper

/-- The instructions of a statement's tokens: a command (R78) or a pseudo-instruction (R79). The client
sequences R79 names are no assembler lines, since the spec gives them no operand syntax (log 17). -/
def statement : List Token → Option (List Instr)
  | [] => some []
  | .word m :: ts =>
    if upper m = ['S', 'E', 'N', 'D'] then
      match ts with
      | [t] => (imm8 t).map fun b => [.send b]
      | _ => none
    else if upper m = ['W', 'A', 'I', 'T'] then
      match ts with
      | [t] => (imm8 t).map fun b => [.wait b]
      | _ => none
    else if upper m = ['O', 'P', 'E', 'N'] then (if ts = [] then some [.openFrame] else none)
    else if upper m = ['C', 'L', 'O', 'S', 'E'] then (if ts = [] then some [.closeFrame] else none)
    else if upper m = ['I', 'D', 'L', 'E'] then (if ts = [] then some [.idle] else none)
    else if upper m = ['D', 'A', 'T', 'A', 'M', 'O', 'D', 'E'] then (if ts = [] then some [.dataMode] else none)
    else if upper m = ['A', 'D', 'D', 'R'] then
      match ts with
      | [t] =>
        match imm8 t with
        | some b => if b.toNat < 16 then some [.addr b.toNat] else none
        | none => none
      | _ => none
    else if upper m = ['D', 'I', 'S', 'P', 'C', 'T', 'L'] then
      match ts with
      | [t] => (imm8 t).map fun b => [.dispCtl (clampBrightness b.toNat)]
      | _ => none
    else if upper m = ['T', 'X', 'N'] then
      match ts with
      | [] => some (txn [])
      | _ => (immList ts).map txn
    else none
  | _ => none

/-- One line of a program (R78). -/
def line (cs : List Char) : Option (List Instr) :=
  match tokens cs 0 with
  | none => none
  | some ts => statement ts

/-- A program, line by line, as the command words the client issues (R78, R80). -/
def assemble : List (List Char) → Option (List CmdWord)
  | [] => some []
  | l :: ls =>
    match line l, assemble ls with
    | some is, some ws => some (is.map Instr.command ++ ws)
    | _, _ => none

end Sys2Proof.Machine.Asm
end

