-- ==== Sys2Proof/Machine/Client.lean ====
section
/-! DEFINITION. The client's sequences, each the list of SBT commands it issues (44_client_sequences.md
R150 to R160). The Display Session has no state of its own. -/

namespace Sys2Proof.Machine

/-- The selector of SET_INDICATOR; any other value is treated as off (R157). -/
inductive Selector where
  | off
  | position (k : Nat)
  deriving DecidableEq, Repr

/-- The session's operations (R150 to R158). A text is the list of its character codes (log 14). -/
inductive ClientOp where
  | init
  | setPower (r : Int)
  | clear
  | writeFrame (f : List Mask)
  | displayText (s : List Nat)
  | allOn
  | setIndicator (sel : Selector)
  | allOff
  deriving DecidableEq, Repr

/-- The instructions a client issues, in order (30_encoding.md R80). -/
abbrev Sequence := List Instr

/-- `CLEAR`: the address byte and 2n zero bytes in one frame (R152). -/
def clearSeq (n : Nat) : Sequence := txn (addrByte 0 :: List.replicate (2 * n) 0x00#8)

/-- `INIT_SEQ` (R150). -/
def initSeq (n : Nat) : Sequence :=
  [.idle, .wait 10#8] ++ txn [dispCtlByte 4] ++ txn [dataModeByte] ++ clearSeq n

/-- `SET_POWER r` for r ≥ 0, the brightness clamped to 7 (R151, R145). -/
def setPowerSeq (r : Nat) : Sequence := txn (singleCommandFrame (dispCtlByte r))

/-- `WRITE_FRAME F` (R154). -/
def writeFrameSeq (f : List Mask) : Sequence := txn [dataModeByte] ++ txn (dataFrame 0 f)

/-- The mask of a character code: codes of 128 and above are blank (R155, R160; log 14). -/
def glyph (code : Nat) : Mask := if code < 128 then Config.lookup code else Config.blank

/-- The frame of DISPLAY_TEXT: the first n characters, then blanks up to length n (R155). -/
def textFrame (n : Nat) (s : List Nat) : List Mask :=
  (s.take n).map glyph ++ List.replicate (n - s.length) Config.blank

/-- `ALL_ON` (R156). -/
def allOnSeq (n : Nat) : Sequence :=
  txn [dataModeByte] ++ txn (addrByte 0 :: List.replicate (2 * n) 0xFF#8) ++ txn [dispCtlByte 7]

/-- The digit index of a selector: only position-1, position-2 and position-3 select one (R157). -/
def Selector.index : Selector → Option Nat
  | .off => none
  | .position k => if 1 ≤ k ∧ k ≤ 3 then some (k - 1) else none

/-- The frame of SET_INDICATOR: n zeros, bit 15 set at the selected position, dropped when that position
is no digit (R157, D21). -/
def indicatorFrame (n : Nat) (sel : Selector) : List Mask :=
  match sel.index with
  | none => List.replicate n 0#16
  | some i => (List.replicate n 0#16).set i indicatorMask

/-- What an operation of a session with n digits issues, refused where the spec says so (R145, R154, R7;
log 15). -/
def ClientOp.expand (n : Nat) (op : ClientOp) : Except Refusal Sequence :=
  if 1 ≤ n ∧ n ≤ 16 then
    match op with
    | .init => .ok (initSeq n)
    | .setPower r => if r < 0 then .error .negativeBrightness else .ok (setPowerSeq r.toNat)
    | .clear => .ok (clearSeq n)
    | .writeFrame f =>
      if 1 ≤ f.length ∧ f.length ≤ n then .ok (writeFrameSeq f) else .error .frameLengthNotAdmitted
    | .displayText s => .ok (writeFrameSeq (textFrame n s))
    | .allOn => .ok (allOnSeq n)
    | .setIndicator sel => .ok (writeFrameSeq (indicatorFrame n sel))
    | .allOff => .ok (clearSeq n)
  else .error .digitCountNotAdmitted

/-- What a list of operations issues, in order. -/
def expandAll (n : Nat) : List ClientOp → Except Refusal Sequence
  | [] => .ok []
  | op :: ops =>
    match op.expand n, expandAll n ops with
    | .ok a, .ok b => .ok (a ++ b)
    | .error e, _ => .error e
    | _, .error e => .error e

/-- The events an instruction appends when it completes with no fault and no reset (R101, R110, R111,
R120, R121). -/
def instrEvents (p : Params) (i : Instr) : List Event :=
  match i.operation with
  | .send v => sendEvents p v
  | .openFrame => [.write .stb false]
  | .closeFrame => [.write .stb true]
  | .idle => idleEvents
  | .wait n => [.delay n.toNat]
  | .dataMode => []
  | .addr _ => []
  | .dispCtl _ => []

end Sys2Proof.Machine
end

