-- ==== Sys2Proof/Machine/Flags.lean ====
section
/-! DEFINITION. The status output and the ports (10_state.md R32, R33; 60_exceptions.md R170). -/

namespace Sys2Proof.Machine

/-- The two bits of a fault code (R170). -/
def FaultCode.bits : FaultCode → BitVec 2
  | .none => 0b00#2
  | .noInit => 0b01#2
  | .settle => 0b10#2
  | .illegal => 0b11#2

/-- `STATUS.RDY`: 1 exactly in `READY` (R32). -/
def rdy (s : State) : Bool := decide (s.ph = .ready)

/-- `STATUS`: FCODE in bits 4:3, FLT in bit 2, INIT in bit 1, RDY in bit 0 (R32). -/
def status (s : State) : BitVec 5 :=
  s.fcode.bits ++ BitVec.ofBool s.fault ++ BitVec.ofBool s.init ++ BitVec.ofBool (rdy s)

/-- `CMD_READY`, equal to `STATUS.RDY` (R33). -/
def cmdReady (s : State) : Bool := rdy s

/-- `CMD_VALID`: the client presents a command (R33). -/
def cmdValid (s : State) : Bool := !s.prog.isEmpty

/-- The `CMD` input: the command presented, if there is one (R33). -/
def cmdPort (s : State) : Option CmdWord := s.prog.head?

/-- The `RST` input at the coming step (R33; log 3). -/
def rstPort (s : State) : Bool := s.rst.head?.getD false

/-- A command is accepted in a step where `CMD_VALID = 1` and `CMD_READY = 1` (R33), and no reset is
applied (R190). -/
def accepts (s : State) : Bool := cmdValid s && cmdReady s && !rstPort s

/-- The `DIO` output: the level driven, when `DIO_OE = 1` (R33). -/
def dioPort (s : State) : Option Level := if s.dioOe = some true then s.dio else none

end Sys2Proof.Machine
end

