-- ==== Sys2Proof/Machine/Wire.lean ====
section
/-! DEFINITION. The receiver's view of TRACE: the decoder `Frames` (43_wire_protocol.md R130 to R134),
and the cells a frame's bytes reach (R148). -/

namespace Sys2Proof.Machine

/-- How a frame ended (R131). -/
inductive FrameEnd where
  | closed
  | cut
  | unterminated
  deriving DecidableEq, Repr

/-- A frame record (R131). A byte is `none` when one of its bits was sampled from a ⊥ line (log 12). -/
structure Frame where
  bytes : List (Option Byte)
  extra : Nat
  ending : FrameEnd
  deriving DecidableEq, Repr

/-- The variables of `Frames` between two events (R131). -/
structure Rx where
  stb : Option Level
  clk : Option Level
  dio : Option Level
  /-- A frame is open (`open` in R131). -/
  inFrame : Bool
  /-- The bits of the byte in progress, first sampled first. -/
  bits : List (Option Level)
  bytes : List (Option Byte)
  out : List Frame
  deriving DecidableEq, Repr

/-- The decoder before the first event (R131). -/
def Rx.start : Rx where
  stb := none
  clk := none
  dio := none
  inFrame := false
  bits := []
  bytes := []
  out := []

/-- The sum of `bits[i] * 2^i`: the first bit is bit 0 (R131). -/
def bitsValue : List Level → Nat
  | [] => 0
  | b :: bs => b.toNat + 2 * bitsValue bs

/-- The levels of a list of bits, or `none` where one is ⊥ (R10). -/
def allKnown : List (Option Level) → Option (List Level)
  | [] => some []
  | none :: _ => none
  | some b :: bs =>
    match allKnown bs with
    | none => none
    | some ls => some (b :: ls)

/-- The byte of eight sampled bits (R131; log 12). -/
def byteOfBits (bs : List (Option Level)) : Option Byte :=
  match allKnown bs with
  | none => none
  | some ls => some (BitVec.ofNat 8 (bitsValue ls))

/-- Take one bit from DIO; eight bits make a byte (R131). -/
def Rx.sample (r : Rx) : Rx :=
  let bits := r.bits ++ [r.dio]
  if bits.length = 8 then { r with bits := [], bytes := r.bytes ++ [byteOfBits bits] }
  else { r with bits := bits }

/-- The record of the frame in progress, ended as said. -/
def Rx.frame (r : Rx) (e : FrameEnd) : Frame := ⟨r.bytes, r.bits.length, e⟩

/-- One event of `Frames` (R131). -/
def Rx.event (r : Rx) : Event → Rx
  | .write .stb false =>
    let r := if r.stb = some true then { r with inFrame := true, bits := [], bytes := [] } else r
    { r with stb := some false }
  | .write .stb true =>
    let r := if r.stb = some false ∧ r.inFrame = true then { r with out := r.out ++ [r.frame .closed] } else r
    { r with inFrame := false, stb := some true }
  | .write .clk true =>
    let r := if r.clk = some false ∧ r.inFrame = true then r.sample else r
    { r with clk := some true }
  | .write .clk false => { r with clk := some false }
  | .write .dio x => { r with dio := some x }
  | .dirDioOut => r
  | .delay _ => r
  | .rst =>
    let r := if r.inFrame then { r with out := r.out ++ [r.frame .cut] } else r
    { Rx.start with out := r.out }

/-- The decoder after a list of events. -/
def Rx.run (r : Rx) (es : List Event) : Rx := es.foldl Rx.event r

/-- The frames seen, a frame still open being `unterminated` (R131). -/
def Rx.frames (r : Rx) : List Frame := if r.inFrame then r.out ++ [r.frame .unterminated] else r.out

/-- `Frames(TRACE)`, the receiver's view (R131). -/
def frames (es : List Event) : List Frame := (Rx.start.run es).frames

/-- The frame a client means: these bytes, whole, closed (R132, R133). -/
def closedFrame (bs : List Byte) : Frame := ⟨bs.map some, 0, .closed⟩

/-! ## The level of a line in a trace -/

/-- The level of a line after one more event: the last write since the last reset (R193). -/
def traceLevelStep (l : Line) (v : Option Level) : Event → Option Level
  | .write m x => if m = l then some x else v
  | .dirDioOut => v
  | .delay _ => v
  | .rst => none

/-- The level of a line after a list of events (R193). -/
def traceLevel (l : Line) (es : List Event) : Option Level := es.foldl (traceLevelStep l) none

/-! ## The receiver's memory, for reference (R148) -/

/-- The cells written by the bytes of a data frame, from receiver address a on: byte j at address
a + j - 1. Past address 15 the spec leaves the effect open (`RX_OVERFLOW`; log 16). -/
def cellWrites : Nat → List Byte → List (Nat × Byte)
  | _, [] => []
  | a, d :: ds => (if a ≤ 15 then [(a, d)] else Config.rxOverflow a d) ++ cellWrites (a + 1) ds

/-- The bytes of a frame, when it is closed and whole (R132). -/
def Frame.payload (f : Frame) : Option (List Byte) :=
  if f.ending = .closed ∧ f.extra = 0 then f.bytes.mapM id else none

/-- The cells a frame writes while auto-increment mode is selected, or `none` where it is no closed frame
with whole bytes that begins with an address byte (R132, R146, R148; log 16). -/
def Frame.autoIncrementWrites (f : Frame) : Option (List (Nat × Byte)) :=
  match f.payload with
  | some (b :: ds) =>
    match decodePayload b with
    | .ok (.addr a) => some (cellWrites a ds)
    | _ => none
  | _ => none

end Sys2Proof.Machine
end

