-- ==== Sys2Proof/Machine/Timing.lean ====
section
/-! DEFINITION. Time, as a function of TRACE over free durations (00_scope.md R7, 42_control.md R122,
70_reset_and_hazards.md R207). No step depends on it (log 11). -/

namespace Sys2Proof.Machine

/-- The time, in ticks, from the start of the event at position i of TRACE to the start of the next one:
at least n µs for `T(n)` and any time for the others (R11, R122). -/
def eventTicks (i : Nat) : Event → Nat
  | .write _ _ => Config.pinLatency i
  | .dirDioOut => Config.pinLatency i
  | .delay n => n * Config.ticksPerMicro + Config.delayExcess i
  | .rst => Config.resetTicks i

/-- The time taken by a list of events whose first stands at position i of TRACE. -/
def ticksFrom : Nat → List Event → Nat
  | _, [] => 0
  | i, e :: es => eventTicks i e + ticksFrom (i + 1) es

/-- The least time, in ticks, of a list of events when a pin write or direction change takes at least
P ticks (R207). -/
def minTicks (P : Nat) : List Event → Nat
  | [] => 0
  | .write _ _ :: es => P + minTicks P es
  | .dirDioOut :: es => P + minTicks P es
  | .delay n :: es => n * Config.ticksPerMicro + minTicks P es
  | .rst :: es => minTicks P es

/-- The time between the start of one event of a trace and the start of a later one, by position. -/
def ticksBetween (es : List Event) (i j : Nat) : Nat := ticksFrom i ((es.drop i).take (j - i))

/-- The time between an STB edge and the next CLK edge, given by their positions, is at least what the receiver
needs; the SBT does not see to it (R203; log 18). -/
def stbSetupMet (es : List Event) (i j : Nat) : Prop := Config.tStbSetupMin ≤ ticksBetween es i j

/-- The width of the STB high pulse between two positions of a trace is at least what the receiver
needs; the SBT does not see to it (R202; log 18). -/
def stbHighWide (es : List Event) (i j : Nat) : Prop := Config.tStbHighMin ≤ ticksBetween es i j

end Sys2Proof.Machine
end

