-- ==== Sys2Proof/Safety.lean ====
section
/-! DEFINITION. What a run is, when it has ended, and the invariants of the machine, in the terms the
statements use (10_state.md R38 to R40; 70_reset_and_hazards.md R197). -/

namespace Sys2Proof.Machine

/-- k steps, stopping at the first fault or refusal. -/
def runSteps : Nat → State → Result
  | 0, s => .next s
  | k + 1, s =>
    match step s with
    | .next t => runSteps k t
    | .fault e => .fault e
    | .refused e => .refused e

/-- The run has ended: no command left, and `PH = READY` (R197). -/
def runEnded (s : State) : Prop := s.prog = [] ∧ s.ph = .ready

/-- The state once the coming sample of `RST` has been taken. -/
def takeSample (s : State) : State := { s with rst := s.rst.tail }

/-- The client presents the word w, the SBT is ready, and no reset is applied: the coming step accepts w
(R27, R33). -/
def presents (s : State) (w : CmdWord) : Prop :=
  s.ph = .ready ∧ s.prog.head? = some w ∧ rstPort s = false

/-- `RST` is 0 at each of the coming k steps, whatever comes after them (70_reset_and_hazards.md R190). -/
abbrev quiet (k : Nat) (s : State) : Prop := ∀ b ∈ s.rst.take k, b = false

/-- The state once the presented word has been taken from the client. -/
def takeWord (s : State) : State := { s with prog := s.prog.tail, rst := s.rst.tail }

/-- The operations that need `INIT = 1`: SEND, OPEN and CLOSE (60_exceptions.md R172). -/
def needsInit : Instr → Bool
  | .send _ => true
  | .openFrame => true
  | .closeFrame => true
  | _ => false

/-- The phases of SEND (R26). -/
def Phase.inSend : Phase → Bool
  | .bClkLo => true
  | .bData => true
  | .bWLo => true
  | .bClkHi => true
  | .bWHi => true
  | _ => false

/-- The phases in which CLK is low: between `PinWrite(CLK, 0)` and `PinWrite(CLK, 1)` (R26). -/
def Phase.clockLow : Phase → Bool
  | .bData => true
  | .bWLo => true
  | .bClkHi => true
  | _ => false

/-- The phases of an operation (R26). -/
def Phase.busy : Phase → Bool
  | .ready => false
  | .faulted => false
  | _ => true

/-- How many events an operation in this state has still to perform (R208). -/
def stepsLeft (s : State) : Nat :=
  let c := (s.cnt.getD 0#4).toNat
  match s.ph with
  | .ready => 0
  | .bClkLo => 40 - 5 * c
  | .bData => 39 - 5 * c
  | .bWLo => 38 - 5 * c
  | .bClkHi => 37 - 5 * c
  | .bWHi => 36 - 5 * c
  | .fOpen => 1
  | .fClose => 1
  | .iStb => 4
  | .iClk => 3
  | .iDio => 2
  | .iDir => 1
  | .wDly => 1
  | .faulted => 0

/-- Whether a program takes no fault from given values of `INIT` and `SETTLE`, with no reset: IDLE before
any SEND, OPEN or CLOSE, and `T_INIT` µs of delay between an IDLE and an OPEN (60_exceptions.md R172, R173;
70_reset_and_hazards.md R195, R196). -/
def faultFree (p : Params) : Bool → Nat → List Instr → Bool
  | _, _, [] => true
  | init, settle, i :: is =>
    match i.operation with
    | .openFrame => init && decide (p.tInit ≤ settle) && faultFree p init settle is
    | .closeFrame => init && faultFree p init settle is
    | .idle => faultFree p true 0 is
    | .wait n => faultFree p init (min (settle + n.toNat) p.tInit) is
    | _ => init && faultFree p init (min (settle + 16 * p.tBit) p.tInit) is

/-- What holds of the registers in every reachable state. Each field is named for what it says. -/
structure RegInv (s : State) : Prop where
  /-- `SETTLE` lies in 0..`T_INIT` (R29). -/
  settle_le : s.settle ≤ Config.hardware.tInit
  /-- `FAULT` is 1 exactly in `FAULTED` (R175, R176). -/
  fault_iff : s.fault = true ↔ s.ph = .faulted
  /-- `FCODE` is `none` exactly while no fault is taken (R170, R31). -/
  fcode_iff : s.fault = false ↔ s.fcode = .none
  /-- After the first IDLE every line has a level and DIO is an output (R38, R23). -/
  driven : s.init = true → s.stb.isSome = true ∧ s.dio.isSome = true ∧ s.dioOe = some true
  /-- After the first IDLE, CLK is low exactly in the low half of a bit (R38, R39). -/
  clock : s.init = true → s.clk = some (!s.ph.clockLow)
  /-- During a SEND, `INIT` is 1, `SR` holds a value and `CNT` is below 8 (R25, R171, R172). -/
  sending : s.ph.inSend = true →
    s.init = true ∧ s.sr.isSome = true ∧ ∃ c, s.cnt = some c ∧ c.toNat < 8
  /-- OPEN and CLOSE run after the first IDLE only, OPEN once `SETTLE` is `T_INIT` (R172, R173). -/
  opening : s.ph = .fOpen → s.init = true ∧ s.settle = Config.hardware.tInit
  closing : s.ph = .fClose → s.init = true
  /-- IDLE has written the lines it has passed (R120). -/
  idleClk : s.ph = .iClk → s.stb = some true
  idleDio : s.ph = .iDio → s.stb = some true ∧ s.clk = some true
  idleDir : s.ph = .iDir → s.stb = some true ∧ s.clk = some true ∧ s.dio = some true
  /-- WAIT finds its operand in `CMDL` (R28). -/
  waiting : s.ph = .wDly → s.cmdl.isSome = true
  /-- STB is low only after the wait of `T_INIT` (R173, R201). -/
  low_settled : s.stb = some false → s.init = true ∧ s.settle = Config.hardware.tInit
  /-- Each line holds what TRACE last wrote to it since the last reset (R30, R193). -/
  levels : ∀ l, traceLevel l s.trace = s.line l

/-- The number of bits of the byte in progress that the receiver has sampled. -/
def bitsInFlight (s : State) : Nat :=
  let c := (s.cnt.getD 0#4).toNat
  match s.ph with
  | .bClkLo => c
  | .bData => c
  | .bWLo => c
  | .bClkHi => c
  | .bWHi => (c + 1) % 8
  | _ => 0

/-- A frame whose bytes are all known, with no bit over (R132). -/
def Frame.whole (f : Frame) : Prop := f.extra = 0 ∧ ∀ b ∈ f.bytes, b.isSome = true

/-- What the receiver has seen, in every reachable state, given the registers. -/
structure FrameInv (s : State) : Prop where
  /-- The receiver knows the three lines. -/
  stb : (Rx.start.run s.trace).stb = s.stb
  clk : (Rx.start.run s.trace).clk = s.clk
  dio : (Rx.start.run s.trace).dio = s.dio
  /-- A frame is open exactly while STB is low (R40). -/
  open_iff : (Rx.start.run s.trace).inFrame = true ↔ s.stb = some false
  /-- In a frame, the bits over are those of the SEND in progress, and every bit is known. -/
  bits : (Rx.start.run s.trace).inFrame = true →
    (Rx.start.run s.trace).bits.length = bitsInFlight s ∧
    (∀ b ∈ (Rx.start.run s.trace).bits, b.isSome = true) ∧
    ∀ b ∈ (Rx.start.run s.trace).bytes, b.isSome = true
  /-- Every frame that was closed is whole: bits over arise only from a cut (R132). -/
  closed_whole : ∀ f ∈ (Rx.start.run s.trace).out, f.ending = .closed → f.whole

/-- The writes of SEND and of STB keep to the clock (R39): DIO is written by a SEND while CLK is low,
and STB is written while CLK is high. -/
def keepsClock (s : State) (e : Event) : Prop :=
  match e with
  | .write .dio _ => s.ph.inSend = true → s.clk = some false
  | .write .stb _ => s.clk = some true
  | _ => True

end Sys2Proof.Machine
end

