-- ==== Sys2Proof/Certificates/Slice0/Obligations.lean ====
section
/-! DEFINITION. The statements about the machine. Each docstring names the rule of spec/ it formalises; one
that names a log entry rests on a choice of the model. -/

open Sys2Proof Sys2Proof.Machine

/-! ## Encoding -/

/-- Every well-formed instruction is read back from its word, in the format of its row, with every operand
at every value its encoding admits (30_encoding.md R72, 43_wire_protocol.md R141 to R143). -/
def Obligations.EncodedInstructionDecodesToItself : Prop :=
  ∀ i : Instr, i.wellFormed = true → decode (encode i) = .ok i

/-- A word that decodes is the word of the well-formed instruction it decodes to: no two words of a format
stand for one instruction, and no reserved word falls to a neighbour (R72, R76). -/
def Obligations.DecodedWordIsTheEncoding : Prop :=
  ∀ (t : TableWord) (i : Instr), decode t = .ok i → i.wellFormed = true ∧ encode i = t

/-- Words written out from R72, R73 and R141 to R143. -/
def Obligations.WordsOfTheSpecDecode : Prop :=
  decodeCommand 0b000_10100101#11 = .ok (.send 0xA5#8) ∧
  decodeCommand 0b001_00000000#11 = .ok .openFrame ∧
  decodeCommand 0b010_00000000#11 = .ok .closeFrame ∧
  decodeCommand 0b011_00000000#11 = .ok .idle ∧
  decodeCommand 0b100_00001010#11 = .ok (.wait 10#8) ∧
  decodePayload 0b0100_0000#8 = .ok .dataMode ∧
  decodePayload 0b1100_0110#8 = .ok (.addr 6) ∧
  decodePayload 0b1000_1100#8 = .ok (.dispCtl 4)

/-- `Decode` of R75, with the fields of R70 computed by division; an illegal word presented at the port takes
`F_ILLEGAL`, and any other goes on to its operation's checks and acceptance action. -/
def Obligations.DecodeIsTheTableOfOperations : Prop :=
  (∀ w : CmdWord,
    (w.toNat / 256 = 0 → decodeCommand w = .ok (.send (BitVec.ofNat 8 (w.toNat % 256)))) ∧
    (w.toNat / 256 = 1 → w.toNat % 256 = 0 → decodeCommand w = .ok .openFrame) ∧
    (w.toNat / 256 = 2 → w.toNat % 256 = 0 → decodeCommand w = .ok .closeFrame) ∧
    (w.toNat / 256 = 3 → w.toNat % 256 = 0 → decodeCommand w = .ok .idle) ∧
    (w.toNat / 256 = 4 → decodeCommand w = .ok (.wait (BitVec.ofNat 8 (w.toNat % 256)))) ∧
    ((5 ≤ w.toNat / 256 ∨ 1 ≤ w.toNat / 256 ∧ w.toNat / 256 ≤ 3 ∧ w.toNat % 256 ≠ 0) →
      ∃ e, decodeCommand w = .error e)) ∧
  (∀ (s : State) (w : CmdWord) (e : DecodeError), presents s w → decodeCommand w = .error e →
    step s = .next { takeWord s with
      cmdl := some w, fault := true, fcode := .illegal, fcmd := w, ph := .faulted }) ∧
  ∀ (s : State) (w : CmdWord) (i : Instr), presents s w → decodeCommand w = .ok i →
    step s = exec i (takeWord s)

/-- The illegal words of R76: the reserved selectors, 768 words, and OPEN, CLOSE or IDLE with a non-zero
immediate, 765 words; each takes `F_ILLEGAL` and performs no event. -/
def Obligations.IllegalWordsAreThoseOfTheSpec : Prop :=
  ((List.range 2048).filter fun n => decide (decodeCommand (BitVec.ofNat 11 n) = .error .reservedOp)).length
    = 768 ∧
  ((List.range 2048).filter fun n => decide (decodeCommand (BitVec.ofNat 11 n) = .error .immNotZero)).length
    = 765 ∧
  (∀ w : CmdWord, decodeCommand w = .error .reservedOp ↔
    opField w = 0b101#3 ∨ opField w = 0b110#3 ∨ opField w = 0b111#3) ∧
  (∀ w : CmdWord, decodeCommand w = .error .immNotZero ↔
    (opField w = 0b001#3 ∨ opField w = 0b010#3 ∨ opField w = 0b011#3) ∧ immField w ≠ 0#8) ∧
  (∀ (w : CmdWord) (e : DecodeError), decodeCommand w = .error e → e = .reservedOp ∨ e = .immNotZero) ∧
  ∀ (s : State) (w : CmdWord) (e : DecodeError), presents s w → decodeCommand w = .error e →
    ∃ t, step s = .next t ∧ t.trace = s.trace ∧ t.fcode = .illegal ∧ t.fcmd = w ∧ t.ph = .faulted

/-- The pseudo-instructions of R79 as command words and as instructions: TXN is OPEN, one SEND for each byte,
CLOSE; DATAMODE, ADDR and DISPCTL are the SEND of their byte. -/
def Obligations.PseudoInstructionsAreTheirCommands : Prop :=
  (∀ bs : List Byte, (txn bs).map Instr.command =
    0x100#11 :: (bs.map (fun b => BitVec.ofNat 11 b.toNat) ++ [0x200#11])) ∧
  Instr.command .dataMode = 0x040#11 ∧
  (∀ a, a < 16 → Instr.command (.addr a) = 0x0C0#11 ||| BitVec.ofNat 11 a) ∧
  (∀ b, Instr.command (.dispCtl b) = 0x088#11 ||| BitVec.ofNat 11 (min b 7)) ∧
  ∀ s : State,
    exec .dataMode s = exec (.send 0x40#8) s ∧
    (∀ a, a < 16 → exec (.addr a) s = exec (.send (0xC0#8 ||| BitVec.ofNat 8 a)) s) ∧
    ∀ b, exec (.dispCtl b) s = exec (.send (0x88#8 ||| BitVec.ofNat 8 (min b 7))) s

/-! ## A step runs the instruction presented -/

/-- When the word presented decodes to i, the step is the execution of i, the word taken from the client
(10_state.md R27). -/
def Obligations.StepRunsTheDecodedInstruction : Prop :=
  ∀ (s : State) (w : CmdWord) (i : Instr), presents s w → decodeCommand w = .ok i →
    step s = exec i (takeWord s)

/-- The same for every well-formed instruction, the payload mnemonics among them, presented as the command
word the client issues for it (R27, 30_encoding.md R79). -/
def Obligations.StepRunsTheIssuedInstruction : Prop :=
  ∀ (s : State) (i : Instr), i.wellFormed = true → presents s i.command →
    step s = exec i (takeWord s)

/-- A word of the opcode table put where the machine takes its next instruction is run by the next step
(the model's own device, log 20). -/
def Obligations.PlacedWordIsRunNext : Prop :=
  ∀ (s : State) (nbits w : Nat) (i : Instr), decodeTableWord nbits w = some i →
    step (s.withFetchWord nbits w) = exec i { s with ph := .ready, rst := s.rst.tail }

/-! ## What each instruction does, and what it leaves alone -/

/-- SEND v from any state with `INIT = 1`: accepted, it runs through 40 events while `RST` is 0 at those steps,
appends `SendEvents(v)`, and ends in the state of R102. Every register not named is unchanged, and the later
samples of `RST` are still to come (R100, R101, R102). -/
def Obligations.SendCompletes : Prop :=
  ∀ (v : Byte) (s : State), s.init = true → quiet 40 s →
    ∃ t, exec (.send v) s = .next t ∧
      t = { s with cmdl := some (0b000#3 ++ v), sr := some v, cnt := some 0#4, ph := .bClkLo } ∧
      runSteps 40 t = .next { s with
        cmdl := some (0b000#3 ++ v)
        clk := some true
        dio := some (v.getLsbD 7)
        sr := some 0x00#8
        cnt := some 8#4
        ph := .ready
        settle := min (s.settle + 16 * Config.hardware.tBit) Config.hardware.tInit
        trace := s.trace ++ (List.range 8).flatMap fun i =>
          [.write .clk false, .write .dio (v.getLsbD i), .delay Config.hardware.tBit,
           .write .clk true, .delay Config.hardware.tBit]
        rst := s.rst.drop 40 }

/-- OPEN with `INIT = 1` and `SETTLE` at `T_INIT`, `RST` being 0: one event, STB low, nothing else (R110). -/
def Obligations.OpenCompletes : Prop :=
  ∀ s : State, s.init = true → Config.hardware.tInit ≤ s.settle → quiet 1 s →
    ∃ t, exec .openFrame s = .next t ∧ t = { s with cmdl := some 0x100#11, ph := .fOpen } ∧
      runSteps 1 t = .next { s with
        cmdl := some 0x100#11
        stb := some false
        ph := .ready
        trace := s.trace ++ [.write .stb false]
        rst := s.rst.drop 1 }

/-- CLOSE with `INIT = 1`, `RST` being 0: one event, STB high, nothing else (R111). -/
def Obligations.CloseCompletes : Prop :=
  ∀ s : State, s.init = true → quiet 1 s →
    ∃ t, exec .closeFrame s = .next t ∧ t = { s with cmdl := some 0x200#11, ph := .fClose } ∧
      runSteps 1 t = .next { s with
        cmdl := some 0x200#11
        stb := some true
        ph := .ready
        trace := s.trace ++ [.write .stb true]
        rst := s.rst.drop 1 }

/-- IDLE from any state, `RST` being 0 at its four steps: its four events in order, every line high, DIO an
output, `INIT` 1, `SETTLE` 0, nothing else (R120). -/
def Obligations.IdleCompletes : Prop :=
  ∀ s : State, quiet 4 s →
    ∃ t, exec .idle s = .next t ∧ t = { s with cmdl := some 0x300#11, ph := .iStb } ∧
      runSteps 4 t = .next { s with
        cmdl := some 0x300#11
        stb := some true
        clk := some true
        dio := some true
        dioOe := some true
        init := true
        settle := 0
        ph := .ready
        trace := s.trace ++ [.write .stb true, .write .clk true, .write .dio true, .dirDioOut]
        rst := s.rst.drop 4 }

/-- WAIT n from any state, before IDLE too, `RST` being 0: one event T(n), `SETTLE` raised by n up to `T_INIT`, nothing
else (R121). -/
def Obligations.WaitCompletes : Prop :=
  ∀ (n : Byte) (s : State), quiet 1 s →
    ∃ t, exec (.wait n) s = .next t ∧ t = { s with cmdl := some (0b100#3 ++ n), ph := .wDly } ∧
      runSteps 1 t = .next { s with
        cmdl := some (0b100#3 ++ n)
        settle := min (s.settle + n.toNat) Config.hardware.tInit
        ph := .ready
        trace := s.trace ++ [.delay n.toNat]
        rst := s.rst.drop 1 }

/-- DATAMODE, ADDR a and DISPCTL b with `INIT = 1` are accepted as the SEND of their byte, whatever the
other registers hold (R79, R141 to R143). The events that follow are those of `SendCompletes`. -/
def Obligations.PayloadInstructionsComplete : Prop :=
  ∀ s : State, s.init = true →
    exec .dataMode s = .next { s with
      cmdl := some 0x040#11, sr := some 0x40#8, cnt := some 0#4, ph := .bClkLo } ∧
    (∀ a, a < 16 → exec (.addr a) s = .next { s with
      cmdl := some (0x0C0#11 ||| BitVec.ofNat 11 a)
      sr := some (0xC0#8 ||| BitVec.ofNat 8 a)
      cnt := some 0#4
      ph := .bClkLo }) ∧
    ∀ b, exec (.dispCtl b) s = .next { s with
      cmdl := some (0x088#11 ||| BitVec.ofNat 11 (min b 7))
      sr := some (0x88#8 ||| BitVec.ofNat 8 (min b 7))
      cnt := some 0#4
      ph := .bClkLo }

/-- ADDR a with a ≥ 16 has no encoding (43_wire_protocol.md R142) and is refused by name (log 7). -/
def Obligations.AddressPastFifteenIsRefused : Prop :=
  ∀ (a : Nat) (s : State), 16 ≤ a → exec (.addr a) s = .refused .addressHasNoEncoding

/-! ## Acceptance and faults -/

/-- The checks of R174 in their order, each outcome written out: `F_ILLEGAL`, then `F_NOINIT` for SEND, OPEN
and CLOSE, then `F_SETTLE` for OPEN, and otherwise the operation's acceptance action. -/
def Obligations.AcceptanceChecksInOrder : Prop :=
  ∀ (s : State) (w : CmdWord), presents s w →
    step s =
      match decodeCommand w with
      | .error _ => .next { takeWord s with
          cmdl := some w, fault := true, fcode := .illegal, fcmd := w, ph := .faulted }
      | .ok i =>
        if needsInit i = true ∧ s.init = false then
          .next { takeWord s with
            cmdl := some w, fault := true, fcode := .noInit, fcmd := w, ph := .faulted }
        else if i = .openFrame ∧ s.settle < Config.hardware.tInit then
          .next { takeWord s with
            cmdl := some w, fault := true, fcode := .settle, fcmd := w, ph := .faulted }
        else
          match i with
          | .send v => .next { takeWord s with
              cmdl := some w, sr := some v, cnt := some 0#4, ph := .bClkLo }
          | .openFrame => .next { takeWord s with cmdl := some w, ph := .fOpen }
          | .closeFrame => .next { takeWord s with cmdl := some w, ph := .fClose }
          | .idle => .next { takeWord s with cmdl := some w, ph := .iStb }
          | _ => .next { takeWord s with cmdl := some w, ph := .wDly }

/-- `F_NOINIT` (R172): with `INIT = 0`, SEND, OPEN and CLOSE, and so the payload mnemonics, take the fault,
which writes `CMDL`, `FAULT`, `FCODE`, `FCMD` and `PH` and nothing else; WAIT and IDLE never take it. -/
def Obligations.CommandsBeforeIdleFault : Prop :=
  (∀ (i : Instr) (s : State), i.wellFormed = true → s.init = false → needsInit i.operation = true →
    exec i s = .next { s with
      cmdl := some i.command, fault := true, fcode := .noInit, fcmd := i.command, ph := .faulted }) ∧
  ∀ s : State,
    exec .idle s = .next { s with cmdl := some 0x300#11, ph := .iStb } ∧
    ∀ n : Byte, exec (.wait n) s = .next { s with cmdl := some (0b100#3 ++ n), ph := .wDly }

/-- `F_SETTLE` (R173): OPEN with `INIT = 1` and `SETTLE < T_INIT`; no other instruction takes it. A WAIT and a
SEND add their delays to `SETTLE`. -/
def Obligations.OpenBeforeSettledFaults : Prop :=
  (∀ s : State, s.init = true → s.settle < Config.hardware.tInit →
    exec .openFrame s = .next { s with
      cmdl := some 0x100#11, fault := true, fcode := .settle, fcmd := 0x100#11, ph := .faulted }) ∧
  (∀ (i : Instr) (s t : State), i ≠ .openFrame → exec i s = .next t → t.fcode = .settle →
    s.fcode = .settle) ∧
  (∀ (n : Byte) (s : State), quiet 1 s → ∃ t u, exec (.wait n) s = .next t ∧ runSteps 1 t = .next u ∧
    u.settle = min (s.settle + n.toNat) Config.hardware.tInit) ∧
  ∀ (v : Byte) (s : State), s.init = true → quiet 40 s →
    ∃ t u, exec (.send v) s = .next t ∧ runSteps 40 t = .next u ∧
      u.settle = min (s.settle + 16 * Config.hardware.tBit) Config.hardware.tInit

/-- Fault entry (R175): whichever step enters `FAULTED`, it accepted a word w, and it writes `CMDL`, `FAULT`,
`FCODE`, `FCMD` (with w) and `PH` and nothing else of the SBT. -/
def Obligations.FaultEntryWritesOnlyFaultState : Prop :=
  ∀ s t : State, s.ph ≠ .faulted → step s = .next t → t.ph = .faulted →
    ∃ w c, presents s w ∧ c ≠ .none ∧
      t = { takeWord s with cmdl := some w, fault := true, fcode := c, fcmd := w, ph := .faulted }

/-- No event raises a fault (20_memory.md R66): in every state that meets the invariant, the step of a phase
of an operation goes on, with the fault registers as they were. A fault comes from an acceptance only. -/
def Obligations.EventsNeverFault : Prop :=
  (∀ s : State, RegInv s → s.ph.busy = true → rstPort s = false →
    ∃ t, step s = .next t ∧ t.fault = s.fault ∧ t.fcode = s.fcode ∧ t.fcmd = s.fcmd ∧
      t.ph ≠ .faulted) ∧
  ∀ s t : State, step s = .next t → s.fault = false → t.fault = true → ∃ w, presents s w

/-- `FAULTED` is left by a reset only (R176, R180): a step from it changes nothing but the samples of `RST`,
or is the reset; with no sample left the step stops (log 9). No command is accepted there. -/
def Obligations.OnlyResetLeavesFaulted : Prop :=
  ∀ s : State, s.ph = .faulted →
    cmdReady s = false ∧
    (s.rst = [] → step s = .fault .stuckFaulted) ∧
    (∀ r, s.rst = false :: r → step s = (if r = [] then .fault .stuckFaulted else .next { s with rst := r })) ∧
    ∀ r, s.rst = true :: r → ∃ t, step s = .next t ∧ t.ph = .ready ∧ t.fault = false

/-- The fault codes of R170 and `STATUS`, bit by bit (R32). -/
def Obligations.StatusShowsTheState : Prop :=
  (FaultCode.none.bits = 0b00#2 ∧ FaultCode.noInit.bits = 0b01#2 ∧ FaultCode.settle.bits = 0b10#2 ∧
    FaultCode.illegal.bits = 0b11#2) ∧
  ∀ s : State,
    (status s).getLsbD 0 = decide (s.ph = .ready) ∧
    (status s).getLsbD 1 = s.init ∧
    (status s).getLsbD 2 = s.fault ∧
    (status s).extractLsb' 3 2 = s.fcode.bits

/-! ## Reset -/

/-- Reset, from any state and between any two steps (R190, R192, R193): every register at its value in R37,
`Rst` appended to TRACE, one for each step with `RST` 1 (for a held reset that is log 3); the client's commands
wait as they were (log 4). -/
def Obligations.ResetSetsEveryRegister : Prop :=
  ∀ (s : State) (r : List Bool), s.rst = true :: r →
    step s = .next {
      stb := none, clk := none, dio := none, dioOe := none, sr := none, cnt := none, cmdl := none
      ph := .ready, init := false, settle := 0, fault := false, fcode := .none, fcmd := 0x000#11
      trace := s.trace ++ [.rst], prog := s.prog, rst := r }

/-- After reset `STATUS` is 0b00001, at the start of a run and after a reset during one, and the first step that
is not a reset takes the command presented (R191). That the command presented after a reset is the one that was
waiting when it came is log 4. -/
def Obligations.FirstCommandTakenAtOnce : Prop :=
  status State.reset = 0b00001#5 ∧
  (∀ (s t : State) (r : List Bool), s.rst = true :: r → step s = .next t → status t = 0b00001#5) ∧
  (∀ (w : CmdWord) (ws : List CmdWord),
    ∃ u, step { State.reset with prog := w :: ws } = .next u ∧ u.cmdl = some w ∧ u.prog = ws) ∧
  ∀ (s t : State) (w : CmdWord) (ws : List CmdWord), rstPort s = true → s.prog = w :: ws →
    step s = .next t → rstPort t = false → ∃ u, step t = .next u ∧ u.cmdl = some w ∧ u.prog = ws

/-! ## Who writes what -/

/-- The writers of the lines and of `DIO_OE` (10_state.md R21, R22, R23): a step with no reset leaves each as it
is, or is the phase of the operation that writes it. Nothing makes DIO an input. -/
def Obligations.LineWriters : Prop :=
  ∀ s t : State, step s = .next t → rstPort s = false →
    (t.stb = s.stb ∨ s.ph = .fOpen ∧ t.stb = some false ∨
      (s.ph = .fClose ∨ s.ph = .iStb) ∧ t.stb = some true) ∧
    (t.clk = s.clk ∨ s.ph = .bClkLo ∧ t.clk = some false ∨
      (s.ph = .bClkHi ∨ s.ph = .iClk) ∧ t.clk = some true) ∧
    (t.dio = s.dio ∨ s.ph = .bData ∧ (∃ v, s.sr = some v ∧ t.dio = some (v.getLsbD 0)) ∨
      s.ph = .iDio ∧ t.dio = some true) ∧
    (t.dioOe = s.dioOe ∨ s.ph = .iDir ∧ t.dioOe = some true)

/-- The writers of `SR` and `CNT` (R24, R25): the acceptance of a SEND and the end of a bit. -/
def Obligations.ShiftRegisterWriters : Prop :=
  ∀ s t : State, step s = .next t → rstPort s = false →
    (t.sr = s.sr ∧ t.cnt = s.cnt) ∨
    (∃ w v, presents s w ∧ decodeCommand w = .ok (.send v) ∧ t.sr = some v ∧ t.cnt = some 0#4) ∨
    (s.ph = .bWHi ∧ ∃ v c, s.sr = some v ∧ s.cnt = some c ∧ t.sr = some (v >>> 1) ∧ t.cnt = some (c + 1#4))

/-- `CMDL` is written by acceptance only, with the word presented (R28). -/
def Obligations.CommandLatchWriters : Prop :=
  ∀ s t : State, step s = .next t → rstPort s = false →
    (∀ w, presents s w → t.cmdl = some w) ∧ ((∀ w, ¬ presents s w) → t.cmdl = s.cmdl)

/-- `INIT` and `SETTLE` (R29): `INIT` is written by the last phase of IDLE only; `SETTLE` is set to 0 there, is
raised by n up to `T_INIT` by the event T(n), and is otherwise as it was; a reset clears both. -/
def Obligations.InitAndSettleWriters : Prop :=
  ∀ s t : State, step s = .next t →
    (rstPort s = true ∧ t.init = false ∧ t.settle = 0) ∨
    (rstPort s = false ∧ s.ph = .iDir ∧ t.init = true ∧ t.settle = 0) ∨
    (rstPort s = false ∧ s.ph ≠ .iDir ∧ t.init = s.init ∧
      ((∃ n, t.trace = s.trace ++ [.delay n] ∧ t.settle = min (s.settle + n) Config.hardware.tInit) ∨
       (∀ n, t.trace ≠ s.trace ++ [.delay n]) ∧ t.settle = s.settle))

/-- `TRACE` is append-only (R30), and a step appends at most one event (00_scope.md R13); an acceptance
appends none (R27); and a phase of an operation, with `RST` 0 at the step whatever samples come after it,
performs exactly the event of R26 and goes to the next phase, nothing else changed. -/
def Obligations.TraceIsAppendOnly : Prop :=
  ∀ s t : State, step s = .next t →
    (t.trace = s.trace ∨ ∃ e, t.trace = s.trace ++ [e]) ∧
    (∀ w, presents s w → t.trace = s.trace) ∧
    (s.ph.busy = true → ∃ e, t.trace = s.trace ++ [e]) ∧
    (rstPort s = false →
      (s.ph = .bClkLo → t = { s with
        clk := some false, ph := .bData, trace := s.trace ++ [.write .clk false], rst := s.rst.tail }) ∧
      (s.ph = .bData → ∃ v, s.sr = some v ∧ t = { s with
        dio := some (v.getLsbD 0)
        ph := .bWLo
        trace := s.trace ++ [.write .dio (v.getLsbD 0)]
        rst := s.rst.tail }) ∧
      (s.ph = .bWLo → t = { s with
        settle := min (s.settle + Config.hardware.tBit) Config.hardware.tInit
        ph := .bClkHi
        trace := s.trace ++ [.delay Config.hardware.tBit]
        rst := s.rst.tail }) ∧
      (s.ph = .bClkHi → t = { s with
        clk := some true, ph := .bWHi, trace := s.trace ++ [.write .clk true], rst := s.rst.tail }) ∧
      (s.ph = .bWHi → ∃ v c, s.sr = some v ∧ s.cnt = some c ∧ t = { s with
        sr := some (v >>> 1)
        cnt := some (c + 1#4)
        settle := min (s.settle + Config.hardware.tBit) Config.hardware.tInit
        ph := if (c + 1#4).toNat < 8 then .bClkLo else .ready
        trace := s.trace ++ [.delay Config.hardware.tBit]
        rst := s.rst.tail }) ∧
      (s.ph = .fOpen → t = { s with
        stb := some false, ph := .ready, trace := s.trace ++ [.write .stb false], rst := s.rst.tail }) ∧
      (s.ph = .fClose → t = { s with
        stb := some true, ph := .ready, trace := s.trace ++ [.write .stb true], rst := s.rst.tail }) ∧
      (s.ph = .iStb → t = { s with
        stb := some true, ph := .iClk, trace := s.trace ++ [.write .stb true], rst := s.rst.tail }) ∧
      (s.ph = .iClk → t = { s with
        clk := some true, ph := .iDio, trace := s.trace ++ [.write .clk true], rst := s.rst.tail }) ∧
      (s.ph = .iDio → t = { s with
        dio := some true, ph := .iDir, trace := s.trace ++ [.write .dio true], rst := s.rst.tail }) ∧
      (s.ph = .iDir → t = { s with
        dioOe := some true
        init := true
        settle := 0
        ph := .ready
        trace := s.trace ++ [.dirDioOut]
        rst := s.rst.tail }) ∧
      (s.ph = .wDly → ∃ w, s.cmdl = some w ∧ t = { s with
        settle := min (s.settle + w.toNat % 256) Config.hardware.tInit
        ph := .ready
        trace := s.trace ++ [.delay (w.toNat % 256)]
        rst := s.rst.tail }))

/-- A command presented while the SBT is not ready waits and is not lost; one is taken in exactly the steps
that accept it (R33). A reset takes none (R190), and that it leaves the client's list as it is is log 4. -/
def Obligations.CommandIsHeldUntilReady : Prop :=
  ∀ s t : State, step s = .next t →
    (accepts s = true → ∃ w, presents s w ∧ s.prog = w :: t.prog) ∧
    (accepts s = false → t.prog = s.prog)

/-! ## Invariants -/

/-- The reset state meets the invariant. -/
def Obligations.ResetMeetsInv : Prop := RegInv State.reset

/-- Every step keeps the invariant of the registers: the ranges and links of `SETTLE`, `FAULT`, `FCODE` and
`PH`, the levels of R38 and R39 phase by phase, and the lines as TRACE last wrote them. -/
def Obligations.StepKeepsInv : Prop := ∀ s t : State, RegInv s → step s = .next t → RegInv t

/-- The reset state meets the invariant of the receiver's view. -/
def Obligations.ResetMeetsFrameInv : Prop := FrameInv State.reset

/-- Every step keeps the invariant of the receiver's view: a frame is open exactly while STB is low (R40), the
bits over are those of the SEND in progress, and every closed frame is whole (43_wire_protocol.md R132). -/
def Obligations.StepKeepsFrameInv : Prop :=
  ∀ s t : State, RegInv s → FrameInv s → step s = .next t → FrameInv t

/-- No rule reads ⊥ (60_exceptions.md R171): from a state that meets the invariant, no step and no run stops
for a read of ⊥. -/
def Obligations.UnspecifiedIsNeverRead : Prop :=
  ∀ s : State, RegInv s → ∀ k, runSteps k s ≠ .fault .readUnspecified

/-- A phase that finds ⊥ in the register it reads stops, whatever the other registers hold, and picks no value
(00_scope.md R10, 60_exceptions.md R171; the choice between fault and refusal is log 1). -/
def Obligations.ReadOfUnspecifiedStops : Prop :=
  ∀ s : State, rstPort s = false →
    (s.ph = .bData → s.sr = none → step s = .fault .readUnspecified) ∧
    (s.ph = .bWHi → s.sr = none ∨ s.cnt = none → step s = .fault .readUnspecified) ∧
    (s.ph = .wDly → s.cmdl = none → step s = .fault .readUnspecified)

/-- The lines at rest (R38): in a state that meets the invariant, `PH = READY` and `INIT = 1` give CLK high, a
level on STB and DIO, and DIO an output; and so in every state a run from it reaches. -/
def Obligations.LinesAtRest : Prop :=
  ∀ (s t : State) (k : Nat), RegInv s → runSteps k s = .next t → t.ph = .ready → t.init = true →
    t.clk = some true ∧ (t.stb = some false ∨ t.stb = some true) ∧
    (t.dio = some false ∨ t.dio = some true) ∧ t.dioOe = some true

/-- The clock discipline (R39): after the first IDLE a SEND writes DIO while CLK is low only, and STB is written
while CLK is high only. -/
def Obligations.WritesKeepTheClock : Prop :=
  ∀ (s t : State) (e : Event), RegInv s → s.init = true → step s = .next t → t.trace = s.trace ++ [e] →
    keepsClock s e

/-- Every operation ends (70_reset_and_hazards.md R208): from a state in an operation that meets the invariant,
with `RST` 0 at its steps, the remaining events, at most 40, lead to `READY`; it rests on the fairness of log 19. -/
def Obligations.OperationsEnd : Prop :=
  ∀ s : State, RegInv s → s.ph.busy = true → quiet (stepsLeft s) s →
    stepsLeft s ≤ 40 ∧ ∃ t, runSteps (stepsLeft s) s = .next t ∧ t.ph = .ready ∧
      t.trace.length = s.trace.length + stepsLeft s ∧ t.rst = s.rst.drop (stepsLeft s)

/-- The SBT does not read the payload (30_encoding.md R81): two SENDs from one state show the client the same
`STATUS` at every step and append the same number of events, whatever their bytes. -/
def Obligations.PayloadIsNotRead : Prop :=
  ∀ (v u : Byte) (s t t' : State) (k : Nat), s.init = true → quiet k s → k ≤ 40 →
    exec (.send v) s = .next t → exec (.send u) s = .next t' →
    ∃ x y, runSteps k t = .next x ∧ runSteps k t' = .next y ∧ status x = status y ∧
      x.trace.length = y.trace.length ∧ x.stb = y.stb ∧ x.clk = y.clk

/-- A program run with `RST` 0 at its steps, one for each command and one for each event (70_reset_and_hazards.md R195, R197, R208; 20_memory.md R61): when each command
finds its boot requirements met, every command is performed, TRACE gains the events of each in order and no fault
is taken; otherwise the run comes to `FAULTED`. It rests on the fairness of log 19. -/
def Obligations.ProgramRunsInOrderOrFaults : Prop :=
  ∀ (s : State) (is : List Instr) (k : Nat), s.ph = .ready →
    k = is.length + (is.flatMap (instrEvents Config.hardware)).length → quiet k s →
    (∀ i ∈ is, i.wellFormed = true) → s.prog = is.map Instr.command →
    (faultFree Config.hardware s.init s.settle is = true →
      ∃ t, runSteps k s = .next t ∧ runEnded t ∧ t.fault = s.fault ∧
        t.trace = s.trace ++ is.flatMap (instrEvents Config.hardware) ∧ t.rst = s.rst.drop k) ∧
    (faultFree Config.hardware s.init s.settle is = false →
      ∃ j t, j ≤ k ∧ runSteps j s = .next t ∧ t.ph = .faulted ∧ t.fault = true)

/-! ## The receiver's view -/

/-- A SEND inside a frame is one byte to the receiver, its bits reassembled with the first bit as bit 0
(20_memory.md R52, 43_wire_protocol.md R131). -/
def Obligations.SentByteIsReassembled : Prop :=
  ∀ (r : Rx) (v : Byte), r.inFrame = true → r.clk = some true → r.bits = [] →
    r.run (sendEvents Config.hardware v) =
      { r with dio := some (v.getLsbD 7), bytes := r.bytes ++ [some v] }

/-- A SEND with STB not low adds nothing (R134), and a run of TXNs gives one frame for each, in order, with its
bytes (R134, R133). What the events add to `Frames` is read after the events before them (log 13). -/
def Obligations.FramesOfTransactionsInOrder : Prop :=
  (∀ (es : List Event) (v : Byte), (Rx.start.run es).stb ≠ some false →
    frames (es ++ sendEvents Config.hardware v) = frames es) ∧
  ∀ (es : List Event) (ts : List (List Byte)),
    (Rx.start.run es).stb = some true → (Rx.start.run es).clk = some true →
    frames (es ++ ts.flatMap (txnEvents Config.hardware)) = frames es ++ ts.map closedFrame

/-- Transparency (R133) of the machine's own run of TXN b1, ..., bk, with its events and end state (41_framer.md
R113): the frame added is exactly the bytes sent. `Frames` is read after the events before it (log 13). -/
def Obligations.TransactionIsTransparent : Prop :=
  ∀ (s : State) (bs : List Byte) (ws : List CmdWord),
    RegInv s → FrameInv s → s.ph = .ready → s.init = true → s.settle = Config.hardware.tInit →
    s.stb = some true → quiet (41 * bs.length + 4) s → s.prog = (txn bs).map Instr.command ++ ws →
    ∃ t, runSteps (41 * bs.length + 4) s = .next t ∧
      t.trace = s.trace ++ txnEvents Config.hardware bs ∧
      (txnEvents Config.hardware bs).length = 40 * bs.length + 2 ∧
      frames t.trace = frames s.trace ++ [closedFrame bs] ∧
      t.stb = some true ∧ t.clk = some true ∧
      t.dio = (match bs.getLast? with
        | none => s.dio
        | some b => some (b.getLsbD 7)) ∧
      t.ph = .ready ∧ t.prog = ws ∧ t.fault = s.fault ∧ t.settle = s.settle ∧
      t.rst = s.rst.drop (41 * bs.length + 4)

/-- The special frames of R132, after any events that left STB and CLK high: an OPEN and a CLOSE with no SEND
between give the empty frame; after an OPEN, any whole bytes and the first k events of a further SEND, the frame
is unterminated if the trace ends there and cut if a reset comes there, with the whole bytes sent and the bits
over counted (39 events make the further byte whole). -/
def Obligations.SpecialFrames : Prop :=
  ∀ es : List Event, (Rx.start.run es).stb = some true → (Rx.start.run es).clk = some true →
    frames (es ++ [.write .stb false, .write .stb true]) = frames es ++ [⟨[], 0, .closed⟩] ∧
    ∀ (bs : List Byte) (v : Byte) (k : Nat), k ≤ 40 →
      let sent := es ++ [.write .stb false] ++ bs.flatMap (sendEvents Config.hardware) ++
        (sendEvents Config.hardware v).take k
      let bytes := if k < 39 then bs.map some else bs.map some ++ [some v]
      let extra := if k < 39 then (k + 1) / 5 else 0
      frames sent = frames es ++ [⟨bytes, extra, .unterminated⟩] ∧
      frames (sent ++ [.rst]) = frames es ++ [⟨bytes, extra, .cut⟩]

/-- Nested transactions (41_framer.md R115): the inner OPEN has no edge, the inner CLOSE ends the frame, and the
bytes after it are ignored. -/
def Obligations.NestedTransactionEndsEarly : Prop :=
  ∀ (es : List Event) (as bs cs : List Byte),
    (Rx.start.run es).stb = some true → (Rx.start.run es).clk = some true →
    frames (es ++ [.write .stb false] ++ as.flatMap (sendEvents Config.hardware) ++ [.write .stb false] ++
      bs.flatMap (sendEvents Config.hardware) ++ [.write .stb true] ++
      cs.flatMap (sendEvents Config.hardware) ++ [.write .stb true]) =
    frames es ++ [closedFrame (as ++ bs)]

/-- The receiver's address of each data byte (43_wire_protocol.md R148): in a closed frame that begins with
ADDR a, byte j goes to a + j - 1, as far as the addresses 0..15 go; auto-increment mode is taken as selected
(log 16). -/
def Obligations.DataBytesReachNextAddresses : Prop :=
  ∀ (a : Nat) (ds : List Byte), a < 16 → a + ds.length ≤ 16 →
    ∃ ws, (closedFrame (addrByte a :: ds)).autoIncrementWrites = some ws ∧ ws.length = ds.length ∧
      ∀ j d, ds[j]? = some d → ws[j]? = some (a + j, d)

/-! ## Payload and client -/

/-- The payload bytes bit by bit (R141, R142, R143). -/
def Obligations.PayloadByteLayouts : Prop :=
  dataModeByte = 0b0100_0000#8 ∧
  (∀ a, a < 16 → (addrByte a).extractLsb' 4 4 = 0b1100#4 ∧ ((addrByte a).extractLsb' 0 4).toNat = a) ∧
  ∀ b, (dispCtlByte b).extractLsb' 3 5 = 0b10001#5 ∧ ((dispCtlByte b).extractLsb' 0 3).toNat = min b 7

/-- A 16-bit mask goes out low byte first, and the bytes give it back (20_memory.md R53, R54). -/
def Obligations.MaskGoesLowByteFirst : Prop :=
  ∀ m : Mask, maskBytes m = [BitVec.ofNat 8 (m.toNat % 256), BitVec.ofNat 8 (m.toNat / 256)] ∧
    maskOfBytes (maskLow m) (maskHigh m) = m

/-- SET_POWER clamps and never signals an error; a negative request is refused (44_client_sequences.md R151,
43_wire_protocol.md R145). -/
def Obligations.BrightnessIsClamped : Prop :=
  ∀ n : Nat, 1 ≤ n → n ≤ 16 →
    (∀ r : Nat, (ClientOp.setPower r).expand n = .ok (txn [0x88#8 ||| BitVec.ofNat 8 (min r 7)])) ∧
    ∀ r : Int, r < 0 → (ClientOp.setPower r).expand n = .error .negativeBrightness

/-- DISPLAY_TEXT issues WRITE_FRAME of its frame (R155): in the frame position p holds the glyph of character p while there is one with a code
below 128, and the blank mask otherwise; n positions. -/
def Obligations.TextFrameIsGlyphsThenBlanks : Prop :=
  ∀ (n : Nat) (s : List Nat), (textFrame n s).length = n ∧
    (∀ p, p < n → (textFrame n s)[p]? =
      some (match s[p]? with
        | some c => if c < 128 then Config.lookup c else Config.blank
        | none => Config.blank)) ∧
    (1 ≤ n → n ≤ 16 →
      (ClientOp.displayText s).expand n = (ClientOp.writeFrame (textFrame n s)).expand n ∧
      (ClientOp.displayText s).expand n = .ok (txn [0x40#8] ++
        txn (0xC0#8 :: (textFrame n s).flatMap fun m => [m.extractLsb' 0 8, m.extractLsb' 8 8])))

/-- SET_INDICATOR issues WRITE_FRAME of its frame (R157): n masks, zero but for bit 15 at the selected
position. -/
def Obligations.IndicatorFrameHasOneBit : Prop :=
  ∀ (n : Nat) (sel : Selector), (indicatorFrame n sel).length = n ∧
    (∀ p, p < n → (indicatorFrame n sel)[p]? =
      some (if sel = .position (p + 1) ∧ p < 3 then 0x8000#16 else 0x0000#16)) ∧
    (1 ≤ n → n ≤ 16 →
      (ClientOp.setIndicator sel).expand n = (ClientOp.writeFrame (indicatorFrame n sel)).expand n ∧
      (ClientOp.setIndicator sel).expand n = .ok (txn [0x40#8] ++
        txn (0xC0#8 :: (indicatorFrame n sel).flatMap fun m => [m.extractLsb' 0 8, m.extractLsb' 8 8])))

/-- The bytes of the data frames (R152, R154, R156, R150, R158): every data frame begins with ADDR 0 (R153). The
refusal by name of a frame of no value or of more than n values is log 15. -/
def Obligations.ClientFramesAreTheBytesOfTheSpec : Prop :=
  ∀ n : Nat, 1 ≤ n → n ≤ 16 →
    ClientOp.clear.expand n = .ok (txn (0xC0#8 :: List.replicate (2 * n) 0x00#8)) ∧
    ClientOp.allOff.expand n = ClientOp.clear.expand n ∧
    (∀ f : List Mask, 1 ≤ f.length → f.length ≤ n →
      (ClientOp.writeFrame f).expand n = .ok (txn [0x40#8] ++
        txn (0xC0#8 :: f.flatMap fun m => [m.extractLsb' 0 8, m.extractLsb' 8 8]))) ∧
    (∀ f : List Mask, f.length = 0 ∨ n < f.length →
      (ClientOp.writeFrame f).expand n = .error .frameLengthNotAdmitted) ∧
    ClientOp.allOn.expand n = .ok (txn [0x40#8] ++
      txn (0xC0#8 :: List.replicate (2 * n) 0xFF#8) ++ txn [0x8F#8]) ∧
    ClientOp.init.expand n = .ok ([.idle, .wait 10#8] ++ txn [0x8C#8] ++ txn [0x40#8] ++
      txn (0xC0#8 :: List.replicate (2 * n) 0x00#8))

/-- The event counts of R161. -/
def Obligations.SequenceEventCounts : Prop :=
  ∀ (n : Nat) (r : Nat) (f : List Mask),
    ((clearSeq n).flatMap (instrEvents Config.hardware)).length = 40 * (1 + 2 * n) + 2 ∧
    ((setPowerSeq r).flatMap (instrEvents Config.hardware)).length = 42 ∧
    ((writeFrameSeq f).flatMap (instrEvents Config.hardware)).length = 42 + 40 * (1 + 2 * f.length) + 2 ∧
    ((initSeq n).flatMap (instrEvents Config.hardware)).length = 4 + 1 + 42 + 42 + (40 * (1 + 2 * n) + 2)

/-- The client sequences take no fault when run from reset with INIT_SEQ first and no reset (R181): no state the
run reaches has taken one. -/
def Obligations.ClientSequencesTakeNoFault : Prop :=
  ∀ (n : Nat) (ops : List ClientOp) (is : List Instr) (k : Nat) (t : State),
    expandAll n (.init :: ops) = .ok is → runSteps k (load is State.reset) = .next t →
    t.fault = false ∧ t.ph ≠ .faulted

/-- The same sequences run to their end, and TRACE is then the events of each command in order (R197, R208,
20_memory.md R61). -/
def Obligations.ClientSequencesRunToTheEnd : Prop :=
  ∀ (n : Nat) (ops : List ClientOp) (is : List Instr), expandAll n (.init :: ops) = .ok is →
    ∃ k t, runSteps k (load is State.reset) = .next t ∧ runEnded t ∧ t.fault = false ∧
      t.trace = is.flatMap (instrEvents Config.hardware)

/-! ## Time -/

/-- The minimum durations of R207, P being any lower bound of the time a pin write or a direction change takes,
from any position of TRACE on, in the model's own account of time (log 11). -/
def Obligations.MinimumDurations : Prop :=
  ∀ P : Nat, (∀ k, P ≤ Config.pinLatency k) → ∀ i : Nat,
    (∀ v : Byte, 16 * Config.hardware.tBit * Config.ticksPerMicro + 24 * P ≤
      ticksFrom i (sendEvents Config.hardware v)) ∧
    (∀ v : Level, P ≤ ticksFrom i [.write .stb v]) ∧
    4 * P ≤ ticksFrom i idleEvents ∧
    (∀ n : Nat, n * Config.ticksPerMicro ≤ ticksFrom i [.delay n]) ∧
    (∀ bs : List Byte, 16 * bs.length * Config.hardware.tBit * Config.ticksPerMicro +
      (24 * bs.length + 2) * P ≤ ticksFrom i (txnEvents Config.hardware bs)) ∧
    ∀ n : Nat, 16 * (1 + 2 * n) * Config.hardware.tBit * Config.ticksPerMicro +
      (24 * (1 + 2 * n) + 2) * P ≤
        ticksFrom i ((clearSeq n).flatMap (instrEvents Config.hardware))

/-- The clock dwell (R200, 40_serializer.md R103): within a SEND, wherever it stands in TRACE, each level of CLK
lasts at least `T_BIT` µs, and DIO is set at least that long before the rising edge, in the model's own account
of time (log 11). -/
def Obligations.ClockLevelsDwell : Prop :=
  ∀ (es fs : List Event) (v : Byte) (j : Nat), j < 8 →
    let tr := es ++ sendEvents Config.hardware v ++ fs
    let b := es.length + 5 * j
    tr[b]? = some (.write .clk false) ∧ tr[b + 1]? = some (.write .dio (v.getLsbD j)) ∧
    tr[b + 3]? = some (.write .clk true) ∧
    Config.hardware.tBit * Config.ticksPerMicro ≤ ticksBetween tr b (b + 3) ∧
    Config.hardware.tBit * Config.ticksPerMicro ≤ ticksBetween tr (b + 1) (b + 3) ∧
    Config.hardware.tBit * Config.ticksPerMicro ≤ ticksBetween tr (b + 3) (b + 5)

/-! ## Assembler -/

/-- An immediate outside 0..255 is an assembly error, not a wrapped value, in decimal, in hex and as a quoted
character, which is its code (30_encoding.md R78). The digits a number may have, and that a quoted character with
a code of 128 to 255 is its code where R78 speaks of ASCII codes, are log 17. -/
def Obligations.AssemblerNeverWrapsAnImmediate : Prop :=
  (∀ (cs : List Char) (n : Nat), Asm.number cs = some n →
    (n < 256 → Asm.imm8 (.word cs) = some (BitVec.ofNat 8 n)) ∧
    (256 ≤ n → Asm.imm8 (.word cs) = none)) ∧
  (∀ n : Nat, Asm.number (Nat.toDigits 10 n) = some n) ∧
  (∀ n : Nat, Asm.number ('0' :: 'x' :: Nat.toDigits 16 n) = some n) ∧
  ∀ c : Char,
    (c.toNat < 256 → Asm.imm8 (.quoted c) = some (BitVec.ofNat 8 c.toNat)) ∧
    (256 ≤ c.toNat → Asm.imm8 (.quoted c) = none)
end

