-- ==== Sys2Proof/Laws/Assembler.lean ====
section
/-! SUPPORT. Reading a number, digit by digit. -/

namespace Sys2Proof.Laws

open Sys2Proof.Machine

/-- A number with one more digit at its end. -/
theorem digits_snoc {base : Nat} {digit : Char → Option Nat} {cs : List Char} {c : Char} {m n d : Nat}
    (h : Asm.digits base digit cs m = some n) (hd : digit c = some d) :
    Asm.digits base digit (cs ++ [c]) m = some (n * base + d) := by
  induction cs generalizing m with
  | nil =>
    cases h
    simp [Asm.digits, hd]
  | cons x xs ih =>
    simp only [Asm.digits, List.cons_append] at h ⊢
    cases hx : digit x with
    | none => simp [hx] at h
    | some k => simpa [hx] using ih (by simpa [hx] using h)

end Sys2Proof.Laws
end

