-- ==== Sys2Proof/Laws/Codec.lean ====
section
/-! SUPPORT. The fields of a command word, the decoder and the encoder. -/

namespace Sys2Proof.Laws

open Sys2Proof.Machine

@[simp] theorem opField_mkCommand (op : BitVec 3) (imm : Byte) : opField (mkCommand op imm) = op := by
  unfold opField mkCommand
  ext i hi
  rw [BitVec.getElem_extractLsb']
  exact (BitVec.getLsbD_append (x := op) (y := imm) (i := 8 + i)).trans
    (by simp [BitVec.getLsbD_eq_getElem hi])

@[simp] theorem immField_mkCommand (op : BitVec 3) (imm : Byte) : immField (mkCommand op imm) = imm := by
  unfold immField mkCommand
  ext i hi
  rw [BitVec.getElem_extractLsb']
  exact (BitVec.getLsbD_append (x := op) (y := imm) (i := 0 + i)).trans
    (by simp [hi])

/-- A word is the concatenation of its fields (30_encoding.md R73). -/
@[simp] theorem mkCommand_fields (w : CmdWord) : mkCommand (opField w) (immField w) = w := by
  unfold opField immField mkCommand
  ext i hi
  simp only [BitVec.getElem_append, BitVec.getElem_extractLsb']
  split <;> rename_i h
  · simp [BitVec.getLsbD_eq_getElem hi]
  · have : 8 + (i - 8) = i := by omega
    simp [this, BitVec.getLsbD_eq_getElem hi]

/-- The words of each operation (30_encoding.md R72, R75): what `Decode` answering an instruction says of
the word. -/
theorem decodeCommand_cases {w : CmdWord} {i : Instr} (h : decodeCommand w = .ok i) :
    (w = mkCommand opSend (immField w) ∧ i = .send (immField w)) ∨
    (w = mkCommand opOpen 0#8 ∧ i = .openFrame) ∨
    (w = mkCommand opClose 0#8 ∧ i = .closeFrame) ∨
    (w = mkCommand opIdle 0#8 ∧ i = .idle) ∨
    (w = mkCommand opWait (immField w) ∧ i = .wait (immField w)) := by
  have e := (mkCommand_fields w).symm
  unfold decodeCommand at h
  simp only at h
  split at h
  · rename_i ho
    rw [ho] at e
    exact .inl ⟨e, by simpa using h.symm⟩
  split at h
  · rename_i ho
    split at h
    · rename_i hi
      rw [ho, hi] at e
      exact .inr (.inl ⟨e, by simpa using h.symm⟩)
    · cases h
  split at h
  · rename_i ho
    split at h
    · rename_i hi
      rw [ho, hi] at e
      exact .inr (.inr (.inl ⟨e, by simpa using h.symm⟩))
    · cases h
  split at h
  · rename_i ho
    split at h
    · rename_i hi
      rw [ho, hi] at e
      exact .inr (.inr (.inr (.inl ⟨e, by simpa using h.symm⟩)))
    · cases h
  split at h
  · rename_i ho
    rw [ho] at e
    exact .inr (.inr (.inr (.inr ⟨e, by simpa using h.symm⟩)))
  · cases h

@[simp] theorem decodeCommand_send (v : Byte) : decodeCommand (mkCommand opSend v) = .ok (.send v) := by
  simp [decodeCommand]

@[simp] theorem decodeCommand_open : decodeCommand (mkCommand opOpen 0#8) = .ok .openFrame := by decide

@[simp] theorem decodeCommand_close : decodeCommand (mkCommand opClose 0#8) = .ok .closeFrame := by decide

@[simp] theorem decodeCommand_idle : decodeCommand (mkCommand opIdle 0#8) = .ok .idle := by decide

@[simp] theorem decodeCommand_wait (n : Byte) : decodeCommand (mkCommand opWait n) = .ok (.wait n) := by
  simp [decodeCommand, opSend, opOpen, opClose, opIdle, opWait]

/-- A byte is its two nibbles. -/
theorem byte_nibbles (b : Byte) : (b.extractLsb' 4 4 ++ b.extractLsb' 0 4 : BitVec 8) = b := by
  ext i hi
  simp only [BitVec.getElem_append, BitVec.getElem_extractLsb']
  split <;> rename_i h
  · simp [BitVec.getLsbD_eq_getElem hi]
  · have : 4 + (i - 4) = i := by omega
    simp [this, BitVec.getLsbD_eq_getElem hi]

/-- The fields by division (30_encoding.md R73). -/
theorem fields_toNat (w : CmdWord) :
    (opField w).toNat = w.toNat / 256 ∧ (immField w).toNat = w.toNat % 256 := by
  constructor
  · simp only [opField, BitVec.extractLsb'_toNat, Nat.shiftRight_eq_div_pow]
    have := w.isLt
    omega
  · simp only [immField, BitVec.extractLsb'_toNat, Nat.shiftRight_eq_div_pow]
    omega

/-- The fields of the byte of ADDR (43_wire_protocol.md R142). -/
theorem addrByte_fields : ∀ a, a < 16 → (addrByte a).extractLsb' 4 4 = 0b1100#4 ∧
    ((addrByte a).extractLsb' 0 4).toNat = a ∧ addrByte a ≠ dataModeByte := by decide

/-- The command word of an instruction decodes to the operation it is (30_encoding.md R79). -/
theorem decodeCommand_command (i : Instr) : decodeCommand i.command = .ok i.operation := by
  cases i <;> simp [Instr.command, encode, TableWord.command, Instr.operation]

end Sys2Proof.Laws
end

