-- ==== Sys2Proof/Laws/PerInstr.lean ====
section
/-! SUPPORT. What holds of each instruction as syntax, one lemma per constructor. -/

namespace Sys2Proof.Laws.CommandFields

/-- The command word a client issues for an instruction decodes to the operation it is, and is the word of
that operation (30_encoding.md R75, R79, R81). -/
def Statement (i : Instr) : Prop :=
  i.operation.wellFormed = true ∧ encode i.operation = .c11 i.command ∧
    decodeCommand i.command = .ok i.operation

theorem send (v : Byte) : Statement (.send v) := ⟨rfl, rfl, decodeCommand_command _⟩
theorem openFrame : Statement .openFrame := ⟨rfl, rfl, decodeCommand_command _⟩
theorem closeFrame : Statement .closeFrame := ⟨rfl, rfl, decodeCommand_command _⟩
theorem idle : Statement .idle := ⟨rfl, rfl, decodeCommand_command _⟩
theorem wait (n : Byte) : Statement (.wait n) := ⟨rfl, rfl, decodeCommand_command _⟩
theorem dataMode : Statement .dataMode := ⟨rfl, rfl, decodeCommand_command _⟩
theorem addr (a : Nat) : Statement (.addr a) := ⟨rfl, rfl, decodeCommand_command _⟩
theorem dispCtl (b : Nat) : Statement (.dispCtl b) := ⟨rfl, rfl, decodeCommand_command _⟩

end Sys2Proof.Laws.CommandFields
end

