-- ==== Sys2Proof/Laws/State.lean ====
section
/-! SUPPORT. What each update of the state leaves in each field: one lemma per field per update. -/

namespace Sys2Proof.Laws

open Sys2Proof.Machine

/-! ## emit -/

@[simp] theorem emit_stb (s : State) (e : Event) : (s.emit e).stb = s.stb := rfl
@[simp] theorem emit_clk (s : State) (e : Event) : (s.emit e).clk = s.clk := rfl
@[simp] theorem emit_dio (s : State) (e : Event) : (s.emit e).dio = s.dio := rfl
@[simp] theorem emit_dioOe (s : State) (e : Event) : (s.emit e).dioOe = s.dioOe := rfl
@[simp] theorem emit_sr (s : State) (e : Event) : (s.emit e).sr = s.sr := rfl
@[simp] theorem emit_cnt (s : State) (e : Event) : (s.emit e).cnt = s.cnt := rfl
@[simp] theorem emit_cmdl (s : State) (e : Event) : (s.emit e).cmdl = s.cmdl := rfl
@[simp] theorem emit_ph (s : State) (e : Event) : (s.emit e).ph = s.ph := rfl
@[simp] theorem emit_init (s : State) (e : Event) : (s.emit e).init = s.init := rfl
@[simp] theorem emit_settle (s : State) (e : Event) : (s.emit e).settle = s.settle := rfl
@[simp] theorem emit_fault (s : State) (e : Event) : (s.emit e).fault = s.fault := rfl
@[simp] theorem emit_fcode (s : State) (e : Event) : (s.emit e).fcode = s.fcode := rfl
@[simp] theorem emit_fcmd (s : State) (e : Event) : (s.emit e).fcmd = s.fcmd := rfl
@[simp] theorem emit_trace (s : State) (e : Event) : (s.emit e).trace = s.trace ++ [e] := rfl
@[simp] theorem emit_prog (s : State) (e : Event) : (s.emit e).prog = s.prog := rfl
@[simp] theorem emit_rst (s : State) (e : Event) : (s.emit e).rst = s.rst := rfl

/-! ## pinDirOut -/

@[simp] theorem pinDirOut_stb (s : State) : (pinDirOut s).stb = s.stb := rfl
@[simp] theorem pinDirOut_clk (s : State) : (pinDirOut s).clk = s.clk := rfl
@[simp] theorem pinDirOut_dio (s : State) : (pinDirOut s).dio = s.dio := rfl
@[simp] theorem pinDirOut_dioOe (s : State) : (pinDirOut s).dioOe = some true := rfl
@[simp] theorem pinDirOut_sr (s : State) : (pinDirOut s).sr = s.sr := rfl
@[simp] theorem pinDirOut_cnt (s : State) : (pinDirOut s).cnt = s.cnt := rfl
@[simp] theorem pinDirOut_cmdl (s : State) : (pinDirOut s).cmdl = s.cmdl := rfl
@[simp] theorem pinDirOut_ph (s : State) : (pinDirOut s).ph = s.ph := rfl
@[simp] theorem pinDirOut_init (s : State) : (pinDirOut s).init = s.init := rfl
@[simp] theorem pinDirOut_settle (s : State) : (pinDirOut s).settle = s.settle := rfl
@[simp] theorem pinDirOut_fault (s : State) : (pinDirOut s).fault = s.fault := rfl
@[simp] theorem pinDirOut_fcode (s : State) : (pinDirOut s).fcode = s.fcode := rfl
@[simp] theorem pinDirOut_fcmd (s : State) : (pinDirOut s).fcmd = s.fcmd := rfl
@[simp] theorem pinDirOut_trace (s : State) : (pinDirOut s).trace = s.trace ++ [.dirDioOut] := rfl
@[simp] theorem pinDirOut_prog (s : State) : (pinDirOut s).prog = s.prog := rfl
@[simp] theorem pinDirOut_rst (s : State) : (pinDirOut s).rst = s.rst := rfl

/-! ## delay -/

@[simp] theorem delay_stb (p : Params) (n : Nat) (s : State) : (delay p n s).stb = s.stb := rfl
@[simp] theorem delay_clk (p : Params) (n : Nat) (s : State) : (delay p n s).clk = s.clk := rfl
@[simp] theorem delay_dio (p : Params) (n : Nat) (s : State) : (delay p n s).dio = s.dio := rfl
@[simp] theorem delay_dioOe (p : Params) (n : Nat) (s : State) : (delay p n s).dioOe = s.dioOe := rfl
@[simp] theorem delay_sr (p : Params) (n : Nat) (s : State) : (delay p n s).sr = s.sr := rfl
@[simp] theorem delay_cnt (p : Params) (n : Nat) (s : State) : (delay p n s).cnt = s.cnt := rfl
@[simp] theorem delay_cmdl (p : Params) (n : Nat) (s : State) : (delay p n s).cmdl = s.cmdl := rfl
@[simp] theorem delay_ph (p : Params) (n : Nat) (s : State) : (delay p n s).ph = s.ph := rfl
@[simp] theorem delay_init (p : Params) (n : Nat) (s : State) : (delay p n s).init = s.init := rfl
@[simp] theorem delay_settle (p : Params) (n : Nat) (s : State) : (delay p n s).settle = min (s.settle + n) p.tInit := rfl
@[simp] theorem delay_fault (p : Params) (n : Nat) (s : State) : (delay p n s).fault = s.fault := rfl
@[simp] theorem delay_fcode (p : Params) (n : Nat) (s : State) : (delay p n s).fcode = s.fcode := rfl
@[simp] theorem delay_fcmd (p : Params) (n : Nat) (s : State) : (delay p n s).fcmd = s.fcmd := rfl
@[simp] theorem delay_trace (p : Params) (n : Nat) (s : State) : (delay p n s).trace = s.trace ++ [.delay n] := rfl
@[simp] theorem delay_prog (p : Params) (n : Nat) (s : State) : (delay p n s).prog = s.prog := rfl
@[simp] theorem delay_rst (p : Params) (n : Nat) (s : State) : (delay p n s).rst = s.rst := rfl

/-! ## goto -/

@[simp] theorem goto_stb (s : State) (f : Phase) : (s.goto f).stb = s.stb := rfl
@[simp] theorem goto_clk (s : State) (f : Phase) : (s.goto f).clk = s.clk := rfl
@[simp] theorem goto_dio (s : State) (f : Phase) : (s.goto f).dio = s.dio := rfl
@[simp] theorem goto_dioOe (s : State) (f : Phase) : (s.goto f).dioOe = s.dioOe := rfl
@[simp] theorem goto_sr (s : State) (f : Phase) : (s.goto f).sr = s.sr := rfl
@[simp] theorem goto_cnt (s : State) (f : Phase) : (s.goto f).cnt = s.cnt := rfl
@[simp] theorem goto_cmdl (s : State) (f : Phase) : (s.goto f).cmdl = s.cmdl := rfl
@[simp] theorem goto_ph (s : State) (f : Phase) : (s.goto f).ph = f := rfl
@[simp] theorem goto_init (s : State) (f : Phase) : (s.goto f).init = s.init := rfl
@[simp] theorem goto_settle (s : State) (f : Phase) : (s.goto f).settle = s.settle := rfl
@[simp] theorem goto_fault (s : State) (f : Phase) : (s.goto f).fault = s.fault := rfl
@[simp] theorem goto_fcode (s : State) (f : Phase) : (s.goto f).fcode = s.fcode := rfl
@[simp] theorem goto_fcmd (s : State) (f : Phase) : (s.goto f).fcmd = s.fcmd := rfl
@[simp] theorem goto_trace (s : State) (f : Phase) : (s.goto f).trace = s.trace := rfl
@[simp] theorem goto_prog (s : State) (f : Phase) : (s.goto f).prog = s.prog := rfl
@[simp] theorem goto_rst (s : State) (f : Phase) : (s.goto f).rst = s.rst := rfl

/-! ## latch -/

@[simp] theorem latch_stb (w : CmdWord) (s : State) : (latch w s).stb = s.stb := rfl
@[simp] theorem latch_clk (w : CmdWord) (s : State) : (latch w s).clk = s.clk := rfl
@[simp] theorem latch_dio (w : CmdWord) (s : State) : (latch w s).dio = s.dio := rfl
@[simp] theorem latch_dioOe (w : CmdWord) (s : State) : (latch w s).dioOe = s.dioOe := rfl
@[simp] theorem latch_sr (w : CmdWord) (s : State) : (latch w s).sr = s.sr := rfl
@[simp] theorem latch_cnt (w : CmdWord) (s : State) : (latch w s).cnt = s.cnt := rfl
@[simp] theorem latch_cmdl (w : CmdWord) (s : State) : (latch w s).cmdl = some w := rfl
@[simp] theorem latch_ph (w : CmdWord) (s : State) : (latch w s).ph = s.ph := rfl
@[simp] theorem latch_init (w : CmdWord) (s : State) : (latch w s).init = s.init := rfl
@[simp] theorem latch_settle (w : CmdWord) (s : State) : (latch w s).settle = s.settle := rfl
@[simp] theorem latch_fault (w : CmdWord) (s : State) : (latch w s).fault = s.fault := rfl
@[simp] theorem latch_fcode (w : CmdWord) (s : State) : (latch w s).fcode = s.fcode := rfl
@[simp] theorem latch_fcmd (w : CmdWord) (s : State) : (latch w s).fcmd = s.fcmd := rfl
@[simp] theorem latch_trace (w : CmdWord) (s : State) : (latch w s).trace = s.trace := rfl
@[simp] theorem latch_prog (w : CmdWord) (s : State) : (latch w s).prog = s.prog := rfl
@[simp] theorem latch_rst (w : CmdWord) (s : State) : (latch w s).rst = s.rst := rfl

/-! ## enterFault -/

@[simp] theorem enterFault_stb (c : FaultCode) (w : CmdWord) (s : State) : (enterFault c w s).stb = s.stb := rfl
@[simp] theorem enterFault_clk (c : FaultCode) (w : CmdWord) (s : State) : (enterFault c w s).clk = s.clk := rfl
@[simp] theorem enterFault_dio (c : FaultCode) (w : CmdWord) (s : State) : (enterFault c w s).dio = s.dio := rfl
@[simp] theorem enterFault_dioOe (c : FaultCode) (w : CmdWord) (s : State) : (enterFault c w s).dioOe = s.dioOe := rfl
@[simp] theorem enterFault_sr (c : FaultCode) (w : CmdWord) (s : State) : (enterFault c w s).sr = s.sr := rfl
@[simp] theorem enterFault_cnt (c : FaultCode) (w : CmdWord) (s : State) : (enterFault c w s).cnt = s.cnt := rfl
@[simp] theorem enterFault_cmdl (c : FaultCode) (w : CmdWord) (s : State) : (enterFault c w s).cmdl = s.cmdl := rfl
@[simp] theorem enterFault_ph (c : FaultCode) (w : CmdWord) (s : State) : (enterFault c w s).ph = .faulted := rfl
@[simp] theorem enterFault_init (c : FaultCode) (w : CmdWord) (s : State) : (enterFault c w s).init = s.init := rfl
@[simp] theorem enterFault_settle (c : FaultCode) (w : CmdWord) (s : State) : (enterFault c w s).settle = s.settle := rfl
@[simp] theorem enterFault_fault (c : FaultCode) (w : CmdWord) (s : State) : (enterFault c w s).fault = true := rfl
@[simp] theorem enterFault_fcode (c : FaultCode) (w : CmdWord) (s : State) : (enterFault c w s).fcode = c := rfl
@[simp] theorem enterFault_fcmd (c : FaultCode) (w : CmdWord) (s : State) : (enterFault c w s).fcmd = w := rfl
@[simp] theorem enterFault_trace (c : FaultCode) (w : CmdWord) (s : State) : (enterFault c w s).trace = s.trace := rfl
@[simp] theorem enterFault_prog (c : FaultCode) (w : CmdWord) (s : State) : (enterFault c w s).prog = s.prog := rfl
@[simp] theorem enterFault_rst (c : FaultCode) (w : CmdWord) (s : State) : (enterFault c w s).rst = s.rst := rfl

/-! ## startSend -/

@[simp] theorem startSend_stb (v : Byte) (s : State) : (startSend v s).stb = s.stb := rfl
@[simp] theorem startSend_clk (v : Byte) (s : State) : (startSend v s).clk = s.clk := rfl
@[simp] theorem startSend_dio (v : Byte) (s : State) : (startSend v s).dio = s.dio := rfl
@[simp] theorem startSend_dioOe (v : Byte) (s : State) : (startSend v s).dioOe = s.dioOe := rfl
@[simp] theorem startSend_sr (v : Byte) (s : State) : (startSend v s).sr = some v := rfl
@[simp] theorem startSend_cnt (v : Byte) (s : State) : (startSend v s).cnt = some 0#4 := rfl
@[simp] theorem startSend_cmdl (v : Byte) (s : State) : (startSend v s).cmdl = s.cmdl := rfl
@[simp] theorem startSend_ph (v : Byte) (s : State) : (startSend v s).ph = .bClkLo := rfl
@[simp] theorem startSend_init (v : Byte) (s : State) : (startSend v s).init = s.init := rfl
@[simp] theorem startSend_settle (v : Byte) (s : State) : (startSend v s).settle = s.settle := rfl
@[simp] theorem startSend_fault (v : Byte) (s : State) : (startSend v s).fault = s.fault := rfl
@[simp] theorem startSend_fcode (v : Byte) (s : State) : (startSend v s).fcode = s.fcode := rfl
@[simp] theorem startSend_fcmd (v : Byte) (s : State) : (startSend v s).fcmd = s.fcmd := rfl
@[simp] theorem startSend_trace (v : Byte) (s : State) : (startSend v s).trace = s.trace := rfl
@[simp] theorem startSend_prog (v : Byte) (s : State) : (startSend v s).prog = s.prog := rfl
@[simp] theorem startSend_rst (v : Byte) (s : State) : (startSend v s).rst = s.rst := rfl

/-! ## endBit -/

@[simp] theorem endBit_stb (v : Byte) (c : BitVec 4) (s : State) : (endBit v c s).stb = s.stb := rfl
@[simp] theorem endBit_clk (v : Byte) (c : BitVec 4) (s : State) : (endBit v c s).clk = s.clk := rfl
@[simp] theorem endBit_dio (v : Byte) (c : BitVec 4) (s : State) : (endBit v c s).dio = s.dio := rfl
@[simp] theorem endBit_dioOe (v : Byte) (c : BitVec 4) (s : State) : (endBit v c s).dioOe = s.dioOe := rfl
@[simp] theorem endBit_sr (v : Byte) (c : BitVec 4) (s : State) : (endBit v c s).sr = some (shiftRight v) := rfl
@[simp] theorem endBit_cnt (v : Byte) (c : BitVec 4) (s : State) : (endBit v c s).cnt = some (c + 1#4) := rfl
@[simp] theorem endBit_cmdl (v : Byte) (c : BitVec 4) (s : State) : (endBit v c s).cmdl = s.cmdl := rfl
@[simp] theorem endBit_ph (v : Byte) (c : BitVec 4) (s : State) : (endBit v c s).ph = if sendComplete (c + 1#4) then .ready else .bClkLo := rfl
@[simp] theorem endBit_init (v : Byte) (c : BitVec 4) (s : State) : (endBit v c s).init = s.init := rfl
@[simp] theorem endBit_settle (v : Byte) (c : BitVec 4) (s : State) : (endBit v c s).settle = s.settle := rfl
@[simp] theorem endBit_fault (v : Byte) (c : BitVec 4) (s : State) : (endBit v c s).fault = s.fault := rfl
@[simp] theorem endBit_fcode (v : Byte) (c : BitVec 4) (s : State) : (endBit v c s).fcode = s.fcode := rfl
@[simp] theorem endBit_fcmd (v : Byte) (c : BitVec 4) (s : State) : (endBit v c s).fcmd = s.fcmd := rfl
@[simp] theorem endBit_trace (v : Byte) (c : BitVec 4) (s : State) : (endBit v c s).trace = s.trace := rfl
@[simp] theorem endBit_prog (v : Byte) (c : BitVec 4) (s : State) : (endBit v c s).prog = s.prog := rfl
@[simp] theorem endBit_rst (v : Byte) (c : BitVec 4) (s : State) : (endBit v c s).rst = s.rst := rfl

/-! ## endIdle -/

@[simp] theorem endIdle_stb (s : State) : (endIdle s).stb = s.stb := rfl
@[simp] theorem endIdle_clk (s : State) : (endIdle s).clk = s.clk := rfl
@[simp] theorem endIdle_dio (s : State) : (endIdle s).dio = s.dio := rfl
@[simp] theorem endIdle_dioOe (s : State) : (endIdle s).dioOe = s.dioOe := rfl
@[simp] theorem endIdle_sr (s : State) : (endIdle s).sr = s.sr := rfl
@[simp] theorem endIdle_cnt (s : State) : (endIdle s).cnt = s.cnt := rfl
@[simp] theorem endIdle_cmdl (s : State) : (endIdle s).cmdl = s.cmdl := rfl
@[simp] theorem endIdle_ph (s : State) : (endIdle s).ph = .ready := rfl
@[simp] theorem endIdle_init (s : State) : (endIdle s).init = true := rfl
@[simp] theorem endIdle_settle (s : State) : (endIdle s).settle = 0 := rfl
@[simp] theorem endIdle_fault (s : State) : (endIdle s).fault = s.fault := rfl
@[simp] theorem endIdle_fcode (s : State) : (endIdle s).fcode = s.fcode := rfl
@[simp] theorem endIdle_fcmd (s : State) : (endIdle s).fcmd = s.fcmd := rfl
@[simp] theorem endIdle_trace (s : State) : (endIdle s).trace = s.trace := rfl
@[simp] theorem endIdle_prog (s : State) : (endIdle s).prog = s.prog := rfl
@[simp] theorem endIdle_rst (s : State) : (endIdle s).rst = s.rst := rfl

/-! ## applyReset -/

@[simp] theorem applyReset_stb (s : State) : (applyReset s).stb = none := rfl
@[simp] theorem applyReset_clk (s : State) : (applyReset s).clk = none := rfl
@[simp] theorem applyReset_dio (s : State) : (applyReset s).dio = none := rfl
@[simp] theorem applyReset_dioOe (s : State) : (applyReset s).dioOe = none := rfl
@[simp] theorem applyReset_sr (s : State) : (applyReset s).sr = none := rfl
@[simp] theorem applyReset_cnt (s : State) : (applyReset s).cnt = none := rfl
@[simp] theorem applyReset_cmdl (s : State) : (applyReset s).cmdl = none := rfl
@[simp] theorem applyReset_ph (s : State) : (applyReset s).ph = .ready := rfl
@[simp] theorem applyReset_init (s : State) : (applyReset s).init = false := rfl
@[simp] theorem applyReset_settle (s : State) : (applyReset s).settle = 0 := rfl
@[simp] theorem applyReset_fault (s : State) : (applyReset s).fault = false := rfl
@[simp] theorem applyReset_fcode (s : State) : (applyReset s).fcode = .none := rfl
@[simp] theorem applyReset_fcmd (s : State) : (applyReset s).fcmd = 0#11 := rfl
@[simp] theorem applyReset_trace (s : State) : (applyReset s).trace = s.trace ++ [.rst] := rfl
@[simp] theorem applyReset_prog (s : State) : (applyReset s).prog = s.prog := rfl
@[simp] theorem applyReset_rst (s : State) : (applyReset s).rst = s.rst := rfl

/-! ## pinWrite -/

@[simp] theorem pinWrite_stb_stb (v : Level) (s : State) : (pinWrite .stb v s).stb = some v := rfl
@[simp] theorem pinWrite_stb_clk (v : Level) (s : State) : (pinWrite .stb v s).clk = s.clk := rfl
@[simp] theorem pinWrite_stb_dio (v : Level) (s : State) : (pinWrite .stb v s).dio = s.dio := rfl
@[simp] theorem pinWrite_stb_dioOe (v : Level) (s : State) : (pinWrite .stb v s).dioOe = s.dioOe := rfl
@[simp] theorem pinWrite_stb_sr (v : Level) (s : State) : (pinWrite .stb v s).sr = s.sr := rfl
@[simp] theorem pinWrite_stb_cnt (v : Level) (s : State) : (pinWrite .stb v s).cnt = s.cnt := rfl
@[simp] theorem pinWrite_stb_cmdl (v : Level) (s : State) : (pinWrite .stb v s).cmdl = s.cmdl := rfl
@[simp] theorem pinWrite_stb_ph (v : Level) (s : State) : (pinWrite .stb v s).ph = s.ph := rfl
@[simp] theorem pinWrite_stb_init (v : Level) (s : State) : (pinWrite .stb v s).init = s.init := rfl
@[simp] theorem pinWrite_stb_settle (v : Level) (s : State) : (pinWrite .stb v s).settle = s.settle := rfl
@[simp] theorem pinWrite_stb_fault (v : Level) (s : State) : (pinWrite .stb v s).fault = s.fault := rfl
@[simp] theorem pinWrite_stb_fcode (v : Level) (s : State) : (pinWrite .stb v s).fcode = s.fcode := rfl
@[simp] theorem pinWrite_stb_fcmd (v : Level) (s : State) : (pinWrite .stb v s).fcmd = s.fcmd := rfl
@[simp] theorem pinWrite_stb_trace (v : Level) (s : State) : (pinWrite .stb v s).trace = s.trace ++ [.write .stb v] := rfl
@[simp] theorem pinWrite_stb_prog (v : Level) (s : State) : (pinWrite .stb v s).prog = s.prog := rfl
@[simp] theorem pinWrite_stb_rst (v : Level) (s : State) : (pinWrite .stb v s).rst = s.rst := rfl
@[simp] theorem pinWrite_clk_stb (v : Level) (s : State) : (pinWrite .clk v s).stb = s.stb := rfl
@[simp] theorem pinWrite_clk_clk (v : Level) (s : State) : (pinWrite .clk v s).clk = some v := rfl
@[simp] theorem pinWrite_clk_dio (v : Level) (s : State) : (pinWrite .clk v s).dio = s.dio := rfl
@[simp] theorem pinWrite_clk_dioOe (v : Level) (s : State) : (pinWrite .clk v s).dioOe = s.dioOe := rfl
@[simp] theorem pinWrite_clk_sr (v : Level) (s : State) : (pinWrite .clk v s).sr = s.sr := rfl
@[simp] theorem pinWrite_clk_cnt (v : Level) (s : State) : (pinWrite .clk v s).cnt = s.cnt := rfl
@[simp] theorem pinWrite_clk_cmdl (v : Level) (s : State) : (pinWrite .clk v s).cmdl = s.cmdl := rfl
@[simp] theorem pinWrite_clk_ph (v : Level) (s : State) : (pinWrite .clk v s).ph = s.ph := rfl
@[simp] theorem pinWrite_clk_init (v : Level) (s : State) : (pinWrite .clk v s).init = s.init := rfl
@[simp] theorem pinWrite_clk_settle (v : Level) (s : State) : (pinWrite .clk v s).settle = s.settle := rfl
@[simp] theorem pinWrite_clk_fault (v : Level) (s : State) : (pinWrite .clk v s).fault = s.fault := rfl
@[simp] theorem pinWrite_clk_fcode (v : Level) (s : State) : (pinWrite .clk v s).fcode = s.fcode := rfl
@[simp] theorem pinWrite_clk_fcmd (v : Level) (s : State) : (pinWrite .clk v s).fcmd = s.fcmd := rfl
@[simp] theorem pinWrite_clk_trace (v : Level) (s : State) : (pinWrite .clk v s).trace = s.trace ++ [.write .clk v] := rfl
@[simp] theorem pinWrite_clk_prog (v : Level) (s : State) : (pinWrite .clk v s).prog = s.prog := rfl
@[simp] theorem pinWrite_clk_rst (v : Level) (s : State) : (pinWrite .clk v s).rst = s.rst := rfl
@[simp] theorem pinWrite_dio_stb (v : Level) (s : State) : (pinWrite .dio v s).stb = s.stb := rfl
@[simp] theorem pinWrite_dio_clk (v : Level) (s : State) : (pinWrite .dio v s).clk = s.clk := rfl
@[simp] theorem pinWrite_dio_dio (v : Level) (s : State) : (pinWrite .dio v s).dio = some v := rfl
@[simp] theorem pinWrite_dio_dioOe (v : Level) (s : State) : (pinWrite .dio v s).dioOe = s.dioOe := rfl
@[simp] theorem pinWrite_dio_sr (v : Level) (s : State) : (pinWrite .dio v s).sr = s.sr := rfl
@[simp] theorem pinWrite_dio_cnt (v : Level) (s : State) : (pinWrite .dio v s).cnt = s.cnt := rfl
@[simp] theorem pinWrite_dio_cmdl (v : Level) (s : State) : (pinWrite .dio v s).cmdl = s.cmdl := rfl
@[simp] theorem pinWrite_dio_ph (v : Level) (s : State) : (pinWrite .dio v s).ph = s.ph := rfl
@[simp] theorem pinWrite_dio_init (v : Level) (s : State) : (pinWrite .dio v s).init = s.init := rfl
@[simp] theorem pinWrite_dio_settle (v : Level) (s : State) : (pinWrite .dio v s).settle = s.settle := rfl
@[simp] theorem pinWrite_dio_fault (v : Level) (s : State) : (pinWrite .dio v s).fault = s.fault := rfl
@[simp] theorem pinWrite_dio_fcode (v : Level) (s : State) : (pinWrite .dio v s).fcode = s.fcode := rfl
@[simp] theorem pinWrite_dio_fcmd (v : Level) (s : State) : (pinWrite .dio v s).fcmd = s.fcmd := rfl
@[simp] theorem pinWrite_dio_trace (v : Level) (s : State) : (pinWrite .dio v s).trace = s.trace ++ [.write .dio v] := rfl
@[simp] theorem pinWrite_dio_prog (v : Level) (s : State) : (pinWrite .dio v s).prog = s.prog := rfl
@[simp] theorem pinWrite_dio_rst (v : Level) (s : State) : (pinWrite .dio v s).rst = s.rst := rfl

/-! ## line -/

@[simp] theorem line_stb (s : State) : s.line .stb = s.stb := rfl
@[simp] theorem line_clk (s : State) : s.line .clk = s.clk := rfl
@[simp] theorem line_dio (s : State) : s.line .dio = s.dio := rfl

end Sys2Proof.Laws
end

