-- ==== Sys2Proof/Laws/Step.lean ====
section
/-! SUPPORT. What acceptance, a phase and a step can do: one inversion lemma each. -/

namespace Sys2Proof.Laws

open Sys2Proof.Machine

/-! ## Taking a sample and taking a word -/

@[simp] theorem takeSample_stb (s : State) : (takeSample s).stb = s.stb := rfl
@[simp] theorem takeSample_clk (s : State) : (takeSample s).clk = s.clk := rfl
@[simp] theorem takeSample_dio (s : State) : (takeSample s).dio = s.dio := rfl
@[simp] theorem takeSample_dioOe (s : State) : (takeSample s).dioOe = s.dioOe := rfl
@[simp] theorem takeSample_sr (s : State) : (takeSample s).sr = s.sr := rfl
@[simp] theorem takeSample_cnt (s : State) : (takeSample s).cnt = s.cnt := rfl
@[simp] theorem takeSample_cmdl (s : State) : (takeSample s).cmdl = s.cmdl := rfl
@[simp] theorem takeSample_ph (s : State) : (takeSample s).ph = s.ph := rfl
@[simp] theorem takeSample_init (s : State) : (takeSample s).init = s.init := rfl
@[simp] theorem takeSample_settle (s : State) : (takeSample s).settle = s.settle := rfl
@[simp] theorem takeSample_fault (s : State) : (takeSample s).fault = s.fault := rfl
@[simp] theorem takeSample_fcode (s : State) : (takeSample s).fcode = s.fcode := rfl
@[simp] theorem takeSample_fcmd (s : State) : (takeSample s).fcmd = s.fcmd := rfl
@[simp] theorem takeSample_trace (s : State) : (takeSample s).trace = s.trace := rfl
@[simp] theorem takeSample_prog (s : State) : (takeSample s).prog = s.prog := rfl
@[simp] theorem takeSample_rst (s : State) : (takeSample s).rst = s.rst.tail := rfl

@[simp] theorem takeWord_stb (s : State) : (takeWord s).stb = s.stb := rfl
@[simp] theorem takeWord_clk (s : State) : (takeWord s).clk = s.clk := rfl
@[simp] theorem takeWord_dio (s : State) : (takeWord s).dio = s.dio := rfl
@[simp] theorem takeWord_dioOe (s : State) : (takeWord s).dioOe = s.dioOe := rfl
@[simp] theorem takeWord_sr (s : State) : (takeWord s).sr = s.sr := rfl
@[simp] theorem takeWord_cnt (s : State) : (takeWord s).cnt = s.cnt := rfl
@[simp] theorem takeWord_cmdl (s : State) : (takeWord s).cmdl = s.cmdl := rfl
@[simp] theorem takeWord_ph (s : State) : (takeWord s).ph = s.ph := rfl
@[simp] theorem takeWord_init (s : State) : (takeWord s).init = s.init := rfl
@[simp] theorem takeWord_settle (s : State) : (takeWord s).settle = s.settle := rfl
@[simp] theorem takeWord_fault (s : State) : (takeWord s).fault = s.fault := rfl
@[simp] theorem takeWord_fcode (s : State) : (takeWord s).fcode = s.fcode := rfl
@[simp] theorem takeWord_fcmd (s : State) : (takeWord s).fcmd = s.fcmd := rfl
@[simp] theorem takeWord_trace (s : State) : (takeWord s).trace = s.trace := rfl
@[simp] theorem takeWord_prog (s : State) : (takeWord s).prog = s.prog.tail := rfl
@[simp] theorem takeWord_rst (s : State) : (takeWord s).rst = s.rst.tail := rfl

/-! ## Fault entry and the checks -/

@[simp] theorem takeFault_latch (c : FaultCode) (w : CmdWord) (s : State) :
    takeFault c (latch w s) = .next (enterFault c w (latch w s)) := rfl

theorem acceptSend_eq (v : Byte) (s : State) :
    acceptSend v s =
      if s.init then .next (startSend v (latch (mkCommand opSend v) s))
      else .next (enterFault .noInit (mkCommand opSend v) (latch (mkCommand opSend v) s)) := by
  rfl

theorem acceptOpen_eq (p : Params) (s : State) :
    acceptOpen p s =
      if s.init then
        if s.settle < p.tInit then
          .next (enterFault .settle (mkCommand opOpen 0#8) (latch (mkCommand opOpen 0#8) s))
        else .next ((latch (mkCommand opOpen 0#8) s).goto .fOpen)
      else .next (enterFault .noInit (mkCommand opOpen 0#8) (latch (mkCommand opOpen 0#8) s)) := by
  rfl

theorem acceptClose_eq (s : State) :
    acceptClose s =
      if s.init then .next ((latch (mkCommand opClose 0#8) s).goto .fClose)
      else .next (enterFault .noInit (mkCommand opClose 0#8) (latch (mkCommand opClose 0#8) s)) := by
  rfl

theorem acceptSend_ok {s : State} (h : s.init = true) (v : Byte) :
    acceptSend v s = .next (startSend v (latch (mkCommand opSend v) s)) := by
  rw [acceptSend_eq, if_pos h]

theorem acceptSend_noInit {s : State} (h : s.init = false) (v : Byte) :
    acceptSend v s = .next (enterFault .noInit (mkCommand opSend v) (latch (mkCommand opSend v) s)) := by
  rw [acceptSend_eq, if_neg (by simp [h])]

theorem acceptOpen_ok {p : Params} {s : State} (h : s.init = true) (hs : p.tInit ≤ s.settle) :
    acceptOpen p s = .next ((latch (mkCommand opOpen 0#8) s).goto .fOpen) := by
  rw [acceptOpen_eq, if_pos h, if_neg (by omega)]

theorem acceptOpen_unsettled {p : Params} {s : State} (h : s.init = true) (hs : s.settle < p.tInit) :
    acceptOpen p s =
      .next (enterFault .settle (mkCommand opOpen 0#8) (latch (mkCommand opOpen 0#8) s)) := by
  rw [acceptOpen_eq, if_pos h, if_pos hs]

theorem acceptOpen_noInit {p : Params} {s : State} (h : s.init = false) :
    acceptOpen p s =
      .next (enterFault .noInit (mkCommand opOpen 0#8) (latch (mkCommand opOpen 0#8) s)) := by
  rw [acceptOpen_eq, if_neg (by simp [h])]

theorem acceptClose_ok {s : State} (h : s.init = true) :
    acceptClose s = .next ((latch (mkCommand opClose 0#8) s).goto .fClose) := by
  rw [acceptClose_eq, if_pos h]

theorem acceptClose_noInit {s : State} (h : s.init = false) :
    acceptClose s =
      .next (enterFault .noInit (mkCommand opClose 0#8) (latch (mkCommand opClose 0#8) s)) := by
  rw [acceptClose_eq, if_neg (by simp [h])]

/-! ## The payload mnemonics are SENDs (30_encoding.md R79) -/

theorem execDataMode_eq (s : State) : exec .dataMode s = exec (.send dataModeByte) s := rfl

theorem execDispCtl_eq (b : Nat) (s : State) : exec (.dispCtl b) s = exec (.send (dispCtlByte b)) s := rfl

theorem execAddr_eq {a : Nat} (h : a < 16) (s : State) : exec (.addr a) s = exec (.send (addrByte a)) s := by
  simp [exec, execAddr, execSend, h]

/-- A well-formed instruction is executed as the operation it is. -/
theorem exec_operation {i : Instr} (h : i.wellFormed = true) (s : State) : exec i s = exec i.operation s := by
  cases i with
  | addr a => exact execAddr_eq (by simpa [Instr.wellFormed] using h) s
  | _ => rfl

/-- At this hardware's parameters the parametric execution is `exec` (00_scope.md R7). -/
@[simp] theorem execWith_hardware (i : Instr) (s : State) : execWith Config.hardware i s = exec i s := by
  cases i <;> rfl

/-- Acceptance at this hardware's parameters (10_state.md R27). -/
theorem acceptWord_hardware (w : CmdWord) (s : State) :
    acceptWord Config.hardware w s =
      match decodeCommand w with
      | .ok i => exec i s
      | .error _ => acceptIllegal w s := by
  unfold acceptWord
  cases decodeCommand w <;> simp

/-- This hardware inserts no delay at an STB edge (70_reset_and_hazards.md R203). -/
@[simp] theorem strobeWrite_hardware (v : Level) (s : State) :
    strobeWrite Config.hardware v s = pinWrite .stb v s := rfl

/-- Everything the acceptance of a command word can do (60_exceptions.md R174). -/
theorem acceptWord_cases {p : Params} {w : CmdWord} {s t : State} (h : acceptWord p w s = .next t) :
    (∃ c, c ≠ .none ∧ t = enterFault c w (latch w s)) ∨
    (∃ v, decodeCommand w = .ok (.send v) ∧ s.init = true ∧ t = startSend v (latch w s)) ∨
    (decodeCommand w = .ok .openFrame ∧ s.init = true ∧ p.tInit ≤ s.settle ∧
      t = (latch w s).goto .fOpen) ∨
    (decodeCommand w = .ok .closeFrame ∧ s.init = true ∧ t = (latch w s).goto .fClose) ∨
    (decodeCommand w = .ok .idle ∧ t = (latch w s).goto .iStb) ∨
    (∃ n, decodeCommand w = .ok (.wait n) ∧ t = (latch w s).goto .wDly) := by
  unfold acceptWord at h
  split at h
  · rename_i i hd
    rcases decodeCommand_cases hd with ⟨hw, rfl⟩ | ⟨hw, rfl⟩ | ⟨hw, rfl⟩ | ⟨hw, rfl⟩ | ⟨hw, rfl⟩
    · simp only [execWith, exec, execSend, acceptSend_eq, ← hw] at h
      split at h <;> cases h
      · exact .inr (.inl ⟨_, hd, by assumption, rfl⟩)
      · exact .inl ⟨_, by simp, rfl⟩
    · simp only [execWith, execOpenWith, acceptOpen_eq, ← hw] at h
      split at h
      · split at h <;> cases h
        · exact .inl ⟨_, by simp, rfl⟩
        · exact .inr (.inr (.inl ⟨hd, by assumption, by omega, rfl⟩))
      · cases h
        exact .inl ⟨_, by simp, rfl⟩
    · simp only [execWith, exec, execClose, acceptClose_eq, ← hw] at h
      split at h <;> cases h
      · exact .inr (.inr (.inr (.inl ⟨hd, by assumption, rfl⟩)))
      · exact .inl ⟨_, by simp, rfl⟩
    · simp only [execWith, exec, execIdle, acceptIdle, ← hw] at h
      cases h
      exact .inr (.inr (.inr (.inr (.inl ⟨hd, rfl⟩))))
    · simp only [execWith, exec, execWait, acceptWait, ← hw] at h
      cases h
      exact .inr (.inr (.inr (.inr (.inr ⟨_, hd, rfl⟩))))
  · simp only [acceptIllegal, takeFault_latch] at h
    cases h
    exact .inl ⟨_, by simp, rfl⟩

/-- Acceptance of a command word always answers a next state (20_memory.md R66, 60_exceptions.md R175). -/
theorem acceptWord_next (p : Params) (w : CmdWord) (s : State) : ∃ t, acceptWord p w s = .next t := by
  unfold acceptWord
  split
  · rename_i i hd
    rcases decodeCommand_cases hd with ⟨-, rfl⟩ | ⟨-, rfl⟩ | ⟨-, rfl⟩ | ⟨-, rfl⟩ | ⟨-, rfl⟩
    · simp only [execWith, exec, execSend, acceptSend_eq]; split <;> exact ⟨_, rfl⟩
    · simp only [execWith, execOpenWith, acceptOpen_eq]; split <;> [split; skip] <;> exact ⟨_, rfl⟩
    · simp only [execWith, exec, execClose, acceptClose_eq]; split <;> exact ⟨_, rfl⟩
    · exact ⟨_, rfl⟩
    · exact ⟨_, rfl⟩
  · exact ⟨_, rfl⟩

/-! ## Phases -/

/-- Everything the step of a phase can do (10_state.md R26): one disjunct per phase of an operation. -/
theorem perform_cases {p : Params} {s t : State} (h : perform p s = .next t) (hb : s.ph.busy = true) :
    (s.ph = .bClkLo ∧ t = (pinWrite .clk false s).goto .bData) ∨
    (s.ph = .bData ∧ ∃ v, s.sr = some v ∧ t = (pinWrite .dio (lowBit v) s).goto .bWLo) ∨
    (s.ph = .bWLo ∧ t = (delay p p.tBit s).goto .bClkHi) ∨
    (s.ph = .bClkHi ∧ t = (pinWrite .clk true s).goto .bWHi) ∨
    (s.ph = .bWHi ∧ ∃ v c, s.sr = some v ∧ s.cnt = some c ∧ t = endBit v c (delay p p.tBit s)) ∨
    (s.ph = .fOpen ∧ t = (strobeWrite p false s).goto .ready) ∨
    (s.ph = .fClose ∧ t = (strobeWrite p true s).goto .ready) ∨
    (s.ph = .iStb ∧ t = (strobeWrite p true s).goto .iClk) ∨
    (s.ph = .iClk ∧ t = (pinWrite .clk true s).goto .iDio) ∨
    (s.ph = .iDio ∧ t = (pinWrite .dio true s).goto .iDir) ∨
    (s.ph = .iDir ∧ t = endIdle (pinDirOut s)) ∨
    (s.ph = .wDly ∧ ∃ w, s.cmdl = some w ∧ t = (delay p (waitOperand w) s).goto .ready) := by
  unfold perform at h
  split at h
  case h_1 e => simp [e, Phase.busy] at hb
  case h_14 e => simp [e, Phase.busy] at hb
  case h_3 e =>
    unfold phaseData at h
    split at h <;> cases h
    exact .inr (.inl ⟨e, _, by assumption, rfl⟩)
  case h_6 e =>
    unfold phaseWHi at h
    split at h <;> cases h
    exact .inr (.inr (.inr (.inr (.inl ⟨e, _, _, by assumption, by assumption, rfl⟩))))
  case h_13 e =>
    unfold phaseWait at h
    split at h <;> cases h
    exact .inr (.inr (.inr (.inr (.inr (.inr (.inr (.inr (.inr (.inr (.inr ⟨e, _, by assumption, rfl⟩))))))))))
  all_goals
    rename_i e
    cases h
    simp [e]

/-! ## The step -/

/-- Everything one step can do (10_state.md R27, 70_reset_and_hazards.md R192): a reset, an acceptance,
an event of an operation, or, where no agent has a step, only the passing of a sample of `RST`. -/
theorem step_cases {s t : State} (h : step s = .next t) :
    (∃ r, s.rst = true :: r ∧ t = applyReset (takeSample s)) ∨
    (s.rst.head?.getD false = false ∧ s.ph = .ready ∧
      ∃ w ws, s.prog = w :: ws ∧ acceptWord Config.hardware w { takeSample s with prog := ws } = .next t) ∨
    (s.rst.head?.getD false = false ∧ s.ph.busy = true ∧
      perform Config.hardware (takeSample s) = .next t) ∨
    (s.rst.head?.getD false = false ∧ (runEnded s ∨ s.ph = .faulted) ∧ t = takeSample s) := by
  have key : ∀ {u : State}, advance Config.hardware u = .next t → u = takeSample s → s.rst.head?.getD false = false →
      (s.rst.head?.getD false = false ∧ s.ph = .ready ∧
        ∃ w ws, s.prog = w :: ws ∧ acceptWord Config.hardware w { takeSample s with prog := ws } = .next t) ∨
      (s.rst.head?.getD false = false ∧ s.ph.busy = true ∧
        perform Config.hardware (takeSample s) = .next t) ∨
      (s.rst.head?.getD false = false ∧ (runEnded s ∨ s.ph = .faulted) ∧ t = takeSample s) := by
    intro u hu hs hr
    subst hs
    unfold advance at hu
    have hph : (takeSample s).ph = s.ph := rfl
    have hpr : (takeSample s).prog = s.prog := rfl
    split at hu
    · rename_i e
      rw [hph] at e
      split at hu
      · rename_i w ws ew
        exact .inl ⟨hr, e, w, ws, ew, hu⟩
      · rename_i ew
        split at hu <;> cases hu
        exact .inr (.inr ⟨hr, .inl ⟨ew, e⟩, rfl⟩)
    · rename_i e
      rw [hph] at e
      split at hu <;> cases hu
      exact .inr (.inr ⟨hr, .inr e, rfl⟩)
    · rename_i e1 e2
      rw [hph] at e1 e2
      refine .inr (.inl ⟨hr, ?_, hu⟩)
      cases hh : s.ph <;> simp_all [Phase.busy]
  unfold step systemStep at h
  split at h
  · rename_i e
    exact .inr (key h (by simp [takeSample, e]; cases s; simp_all) (by simp [e]))
  · rename_i r e
    cases h
    exact .inl ⟨r, e, by simp [takeSample, e]⟩
  · rename_i r e
    exact .inr (key h (by simp [takeSample, e]) (by simp [e]))

/-- Everything one step can do, written out: a reset; the acceptance of the presented word, a fault or the
first phase of its operation; the event of a phase; or no step of an agent (10_state.md R26, R27;
60_exceptions.md R174). -/
theorem step_inversion {s t : State} (h : step s = .next t) :
    (rstPort s = true ∧ t = applyReset (takeSample s)) ∨
    (∃ w, presents s w ∧
      ((∃ c, c ≠ .none ∧ t = enterFault c w (latch w (takeWord s))) ∨
       (∃ v, decodeCommand w = .ok (.send v) ∧ s.init = true ∧ t = startSend v (latch w (takeWord s))) ∨
       (decodeCommand w = .ok .openFrame ∧ s.init = true ∧ Config.hardware.tInit ≤ s.settle ∧
        t = (latch w (takeWord s)).goto .fOpen) ∨
       (decodeCommand w = .ok .closeFrame ∧ s.init = true ∧ t = (latch w (takeWord s)).goto .fClose) ∨
       (decodeCommand w = .ok .idle ∧ t = (latch w (takeWord s)).goto .iStb) ∨
       (∃ n, decodeCommand w = .ok (.wait n) ∧ t = (latch w (takeWord s)).goto .wDly))) ∨
    (rstPort s = false ∧ s.ph.busy = true ∧
     ((s.ph = .bClkLo ∧ t = (pinWrite .clk false (takeSample s)).goto .bData) ∨
      (s.ph = .bData ∧ ∃ v, s.sr = some v ∧
        t = (pinWrite .dio (lowBit v) (takeSample s)).goto .bWLo) ∨
      (s.ph = .bWLo ∧ t = (delay Config.hardware Config.hardware.tBit (takeSample s)).goto .bClkHi) ∨
      (s.ph = .bClkHi ∧ t = (pinWrite .clk true (takeSample s)).goto .bWHi) ∨
      (s.ph = .bWHi ∧ ∃ v c, s.sr = some v ∧ s.cnt = some c ∧
        t = endBit v c (delay Config.hardware Config.hardware.tBit (takeSample s))) ∨
      (s.ph = .fOpen ∧ t = (pinWrite .stb false (takeSample s)).goto .ready) ∨
      (s.ph = .fClose ∧ t = (pinWrite .stb true (takeSample s)).goto .ready) ∨
      (s.ph = .iStb ∧ t = (pinWrite .stb true (takeSample s)).goto .iClk) ∨
      (s.ph = .iClk ∧ t = (pinWrite .clk true (takeSample s)).goto .iDio) ∨
      (s.ph = .iDio ∧ t = (pinWrite .dio true (takeSample s)).goto .iDir) ∨
      (s.ph = .iDir ∧ t = endIdle (pinDirOut (takeSample s))) ∨
      (s.ph = .wDly ∧ ∃ w, s.cmdl = some w ∧
        t = (delay Config.hardware (waitOperand w) (takeSample s)).goto .ready))) ∨
    (rstPort s = false ∧ (runEnded s ∨ s.ph = .faulted) ∧ t = takeSample s) := by
  rcases step_cases h with ⟨r, hr, rfl⟩ | ⟨hr, hp, w, ws, hw, ha⟩ | ⟨hr, hb, hp⟩ | ⟨hr, he, ht⟩
  · exact .inl ⟨by simp [rstPort, hr], rfl⟩
  · refine .inr (.inl ⟨w, ⟨hp, by simp [hw], hr⟩, ?_⟩)
    have e : ({ takeSample s with prog := ws } : State) = takeWord s := by
      simp [takeSample, takeWord, hw]
    rw [e] at ha
    exact acceptWord_cases ha
  · exact .inr (.inr (.inl ⟨hr, hb, perform_cases hp hb⟩))
  · exact .inr (.inr (.inr ⟨hr, he, ht⟩))

/-- A word is presented only in `READY`. -/
theorem presents_not_busy {s : State} {w : CmdWord} (h : presents s w) : s.ph.busy = false := by
  rw [h.1]
  rfl

/-- A step that takes the presented word is its acceptance (10_state.md R27, R33). -/
theorem step_presents {s : State} {w : CmdWord} (h : presents s w) :
    step s = acceptWord Config.hardware w (takeWord s) := by
  obtain ⟨h1, h2, h3⟩ := h
  rcases s with ⟨_, _, _, _, _, _, _, ph, _, _, _, _, _, _, prog, rst⟩
  simp only at h1 h2
  subst h1
  cases prog with
  | nil => simp at h2
  | cons x xs =>
    simp only [List.head?_cons, Option.some.injEq] at h2
    subst h2
    rcases rst with _ | ⟨_ | _, r⟩
    all_goals first
      | (simp [rstPort] at h3; done)
      | simp [step, systemStep, advance, takeWord]

/-- A step in a phase of an operation, with no reset, is the event of that phase (10_state.md R27). -/
theorem step_busy {s : State} (hb : s.ph.busy = true) (hr : rstPort s = false) :
    step s = perform Config.hardware (takeSample s) := by
  rcases s with ⟨_, _, _, _, _, _, _, ph, _, _, _, _, _, _, prog, rst⟩
  rcases rst with _ | ⟨_ | _, r⟩
  all_goals first
    | (simp [rstPort] at hr; done)
    | (cases ph <;> first | (simp [Phase.busy] at hb; done) | rfl)

/-! ## Runs -/

theorem runSteps_add (j k : Nat) (s : State) :
    runSteps (j + k) s =
      match runSteps j s with
      | .next t => runSteps k t
      | .fault e => .fault e
      | .refused e => .refused e := by
  induction j generalizing s with
  | zero => simp [runSteps]
  | succ j ih =>
    rw [Nat.succ_add]
    simp only [runSteps]
    cases step s <;> simp [ih]

/-- A run goes on from where its first part ends. -/
theorem runSteps_trans {j k : Nat} {s t : State} (h : runSteps j s = .next t) :
    runSteps (j + k) s = runSteps k t := by
  rw [runSteps_add, h]

/-- One step of the host's run. -/
theorem coreRun_succ (M : Host.Core) (k : Nat) (s : M.State) :
    M.run (k + 1) s =
      match M.step s with
      | .next t => M.run k t
      | .fault e => .fault e
      | .refused e => .refused e := rfl

/-- The run of the model is the host's run of the core. -/
theorem runSteps_eq_core (k : Nat) (s : State) : runSteps k s = Sys2Proof.core.run k s := by
  induction k generalizing s with
  | zero => rfl
  | succ k ih =>
    refine Eq.trans ?_ (coreRun_succ Sys2Proof.core k s).symm
    have hc : Sys2Proof.core.step s = step s := rfl
    rw [hc]
    unfold runSteps
    cases step s with
    | next t => exact ih t
    | fault e => rfl
    | refused e => rfl

/-- What holds at the start and is kept by every step holds wherever a run leads. -/
theorem runSteps_invariant {P : State → Prop} (keep : ∀ s t, P s → step s = .next t → P t)
    {k : Nat} {s t : State} (hs : P s) (h : runSteps k s = .next t) : P t := by
  induction k generalizing s with
  | zero =>
    cases h
    exact hs
  | succ k ih =>
    simp only [runSteps] at h
    split at h
    · rename_i u hu
      exact ih (keep s u hs hu) h
    · cases h
    · cases h

end Sys2Proof.Laws
end

