-- ==== Sys2Proof/Laws/Run.lean ====
section
/-! SUPPORT. Runs with no reset applied: what a run without samples of `RST` does, a run with samples 0 does;
and one bit of a SEND as a run of five steps. -/

namespace Sys2Proof.Laws

open Sys2Proof.Machine

/-! ## Samples of `RST` that are 0 -/

/-- The outcome with other samples of `RST` still to come. -/
def withSamples (r : List Bool) : Result → Result
  | .next t => .next { t with rst := r }
  | .fault e => .fault e
  | .refused e => .refused e

/-- Acceptance does not look at the samples still to come. -/
theorem acceptWord_samples (p : Params) (w : CmdWord) (s : State) (r : List Bool) :
    acceptWord p w { s with rst := r } = withSamples r (acceptWord p w s) := by
  unfold acceptWord
  split
  · rename_i i hd
    rcases decodeCommand_cases hd with ⟨-, rfl⟩ | ⟨-, rfl⟩ | ⟨-, rfl⟩ | ⟨-, rfl⟩ | ⟨-, rfl⟩
    · simp only [execWith, exec, execSend, acceptSend_eq]; split <;> rfl
    · simp only [execWith, execOpenWith, acceptOpen_eq]; split <;> [split; skip] <;> rfl
    · simp only [execWith, exec, execClose, acceptClose_eq]; split <;> rfl
    · rfl
    · rfl
  · rfl

/-- The event of a phase does not look at the samples still to come. -/
theorem perform_samples (p : Params) (s : State) (r : List Bool) :
    perform p { s with rst := r } = withSamples r (perform p s) := by
  rcases s with ⟨_, _, _, _, sr, cnt, cmdl, ph, _, _, _, _, _, _, _, _⟩
  cases ph
  case bData => cases sr <;> rfl
  case bWHi => cases sr <;> cases cnt <;> rfl
  case wDly => cases cmdl <;> rfl
  case fOpen => simp only [perform, phaseOpen, strobeWrite, stbSetup]; split <;> rfl
  case fClose => simp only [perform, phaseClose, strobeWrite, stbSetup]; split <;> rfl
  case iStb => simp only [perform, phaseIdleStb, strobeWrite, stbSetup]; split <;> rfl
  all_goals rfl

/-- Where a step is possible with no sample to come, it is the same step with a sample 0 to come. -/
theorem step_quiet {s t : State} (hr : rstPort s = false) (h : step { s with rst := [] } = .next t) :
    t.rst = [] ∧ step s = .next { t with rst := s.rst.tail } := by
  have hb : ∀ s : State, s.ph.busy = true ∨ s.ph = .ready ∨ s.ph = .faulted := fun s => by
    cases s.ph <;> simp [Phase.busy]
  have out : ∀ o : Result, withSamples [] o = .next t →
      t.rst = [] ∧ withSamples s.rst.tail o = .next { t with rst := s.rst.tail } := by
    intro o ho
    cases o <;> cases ho
    exact ⟨rfl, rfl⟩
  rcases hb s with hp | hp | hp
  · rw [step_busy (s := { s with rst := [] }) hp rfl] at h
    rw [step_busy hp hr, takeSample, perform_samples]
    exact out _ ((perform_samples _ s []).symm.trans h)
  · cases hw : s.prog with
    | nil =>
      simp [step, systemStep, advance, hp, hw] at h
    | cons w ws =>
      rw [step_presents (s := { s with rst := [] }) (w := w) ⟨hp, by simp [hw], rfl⟩] at h
      rw [step_presents (w := w) ⟨hp, by simp [hw], hr⟩]
      have e := acceptWord_samples Config.hardware w { s with prog := s.prog.tail }
      rw [takeWord, e]
      exact out _ ((e []).symm.trans h)
  · simp [step, systemStep, advance, hp] at h

/-- A run that is possible with no sample to come is the same run with samples 0 at its steps, the later
samples still to come at its end. -/
theorem runSteps_quiet {k : Nat} {s t : State} (hq : quiet k s)
    (h : runSteps k { s with rst := [] } = .next t) :
    t.rst = [] ∧ runSteps k s = .next { t with rst := s.rst.drop k } := by
  induction k generalizing s with
  | zero =>
    cases h
    exact ⟨rfl, rfl⟩
  | succ k ih =>
    simp only [runSteps] at h ⊢
    have hr : rstPort s = false := by
      unfold rstPort
      cases hs : s.rst with
      | nil => rfl
      | cons b r => simpa [hs] using hq b (by simp [hs])
    cases hu : step { s with rst := [] } with
    | next u =>
      rw [hu] at h
      obtain ⟨h1, h2⟩ := step_quiet hr hu
      rw [h2]
      have hq' : quiet k { u with rst := s.rst.tail } := fun b hb => hq b (by
        cases hs : s.rst with
        | nil => simp [hs] at hb
        | cons c r => simp [hs] at hb ⊢; exact .inr hb)
      have e : ({ { u with rst := s.rst.tail } with rst := [] } : State) = u := by rw [← h1]
      simpa using ih hq' (by rw [e]; exact h)
    | fault e => rw [hu] at h; cases h
    | refused e => rw [hu] at h; cases h

/-- No sample to come is quiet for any number of steps. -/
theorem quiet_of_nil {k : Nat} {s : State} (h : s.rst = []) : quiet k s := by simp [quiet, h]

/-! ## One bit of a SEND -/

/-- The five steps of one bit, with no reset (10_state.md R26, 40_serializer.md R100). -/
theorem runSteps_bit {v : Byte} {c : BitVec 4} {s : State} (hp : s.ph = .bClkLo) (hs : s.sr = some v)
    (hc : s.cnt = some c) (hr : quiet 5 s) :
    runSteps 5 s = .next { s with
      clk := some true
      dio := some (v.getLsbD 0)
      sr := some (v >>> 1)
      cnt := some (c + 1#4)
      ph := if 8 ≤ (c + 1#4).toNat then .ready else .bClkLo
      settle := min (s.settle + 2 * Config.hardware.tBit) Config.hardware.tInit
      trace := s.trace ++ [.write .clk false, .write .dio (v.getLsbD 0), .delay Config.hardware.tBit,
        .write .clk true, .delay Config.hardware.tBit]
      rst := s.rst.drop 5 } := by
  rcases s with ⟨_, _, _, _, _, _, _, ph, _, _, _, _, _, _, _, rst⟩
  simp only at hp hs hc
  subst hp hs hc
  refine (runSteps_quiet hr rfl).2.trans ?_
  simp [endBit, pinWrite, delay, State.setLine, State.emit, State.goto, shiftRight, lowBit, sendComplete,
    Config.hardware]
  omega

end Sys2Proof.Laws
end

