-- ==== Sys2Proof/Laws/Wire.lean ====
section
/-! SUPPORT. The receiver's decoder and the line levels, event by event, and the length of what an
operation appends. -/

namespace Sys2Proof.Laws

open Sys2Proof.Machine

/-- The level of a line after one more event (70_reset_and_hazards.md R193). -/
@[simp] theorem traceLevel_snoc (l : Line) (es : List Event) (e : Event) :
    traceLevel l (es ++ [e]) = traceLevelStep l (traceLevel l es) e := by
  simp [traceLevel]

/-- The decoder over two lists of events (43_wire_protocol.md R131). -/
theorem run_append (r : Rx) (a b : List Event) : r.run (a ++ b) = (r.run a).run b := by
  simp [Rx.run]

/-- The decoder after one more event. -/
theorem run_snoc (r : Rx) (es : List Event) (e : Event) : r.run (es ++ [e]) = (r.run es).event e := by
  simp [Rx.run]

@[simp] theorem run_nil (r : Rx) : r.run [] = r := rfl

@[simp] theorem run_cons (r : Rx) (e : Event) (es : List Event) : r.run (e :: es) = (r.event e).run es := rfl

/-- A frame is open only while the receiver sees STB low (43_wire_protocol.md R131). -/
theorem run_inFrame {es : List Event} (h : (Rx.start.run es).inFrame = true) :
    (Rx.start.run es).stb = some false := by
  induction es using List.reverseRecOn with
  | nil => exact absurd h (by decide)
  | append_singleton es e ih =>
    rw [run_snoc] at h ⊢
    generalize Rx.start.run es = r at h ih ⊢
    rcases e with ⟨_ | _ | _, _ | _⟩ | _ | _ | _
    all_goals simp only [Rx.event, Rx.sample] at h ⊢
    all_goals first
      | exact ih h
      | exact absurd h (by decide)
      | (revert h; split <;> [split; skip] <;> exact ih)

/-- A byte all of whose bits are known is known. -/
theorem byteOfBits_isSome {bs : List (Option Level)} (h : ∀ b ∈ bs, b.isSome = true) :
    (byteOfBits bs).isSome = true := by
  have key : ∀ bs : List (Option Level), (∀ b ∈ bs, b.isSome = true) → (allKnown bs).isSome = true := by
    intro bs
    induction bs with
    | nil => intro _; rfl
    | cons b bs ih =>
      intro h
      obtain ⟨x, rfl⟩ := Option.isSome_iff_exists.1 (h b (by simp))
      obtain ⟨ls, hl⟩ := Option.isSome_iff_exists.1 (ih fun c hc => h c (by simp [hc]))
      simp [allKnown, hl]
  obtain ⟨ls, hl⟩ := Option.isSome_iff_exists.1 (key bs h)
  simp [byteOfBits, hl]

/-- The eight bits of a byte, first bit lowest, give the byte back (20_memory.md R52). -/
theorem byteOfBits_bits : ∀ v : Byte,
    byteOfBits [some (v.getLsbD 0), some (v.getLsbD 1), some (v.getLsbD 2), some (v.getLsbD 3),
      some (v.getLsbD 4), some (v.getLsbD 5), some (v.getLsbD 6), some (v.getLsbD 7)] = some v := by
  decide

/-- A SEND appends 40 events (40_serializer.md R101). -/
@[simp] theorem sendEvents_length (p : Params) (v : Byte) : (sendEvents p v).length = 40 := by
  simp [sendEvents, List.range_succ]

/-- The events of the commands of TXN are the events of the transaction (41_framer.md R113). -/
theorem txn_events (p : Params) (bs : List Byte) : (txn bs).flatMap (instrEvents p) = txnEvents p bs := by
  simp [txn, txnEvents, instrEvents, Instr.operation, List.flatMap_map]

/-- A transaction of k bytes appends 40k + 2 events (41_framer.md R113). -/
theorem txnEvents_length (p : Params) (bs : List Byte) : (txnEvents p bs).length = 40 * bs.length + 2 := by
  simp [txnEvents, List.length_flatMap]
  omega

end Sys2Proof.Laws
end

