-- ==== Sys2Proof/Laws/Time.lean ====
section
/-! SUPPORT. The time of a list of events and its lower bound. -/

namespace Sys2Proof.Laws

open Sys2Proof.Machine

/-- The time of two lists of events is the sum of their times. -/
theorem ticksFrom_append (i : Nat) (a b : List Event) :
    ticksFrom i (a ++ b) = ticksFrom i a + ticksFrom (i + a.length) b := by
  induction a generalizing i with
  | nil => simp [ticksFrom]
  | cons e a ih =>
    simp only [List.cons_append, ticksFrom, ih, List.length_cons]
    rw [show i + 1 + a.length = i + (a.length + 1) by omega]
    omega

/-- The least time of two lists of events is the sum of their least times. -/
theorem minTicks_append (P : Nat) (a b : List Event) : minTicks P (a ++ b) = minTicks P a + minTicks P b := by
  induction a with
  | nil => simp [minTicks]
  | cons e a ih => cases e <;> simp [minTicks, ih] <;> omega

/-- No list of events takes less than its least time (70_reset_and_hazards.md R207). -/
theorem minTicks_le {P : Nat} (hP : ∀ k, P ≤ Config.pinLatency k) (i : Nat) (es : List Event) :
    minTicks P es ≤ ticksFrom i es := by
  induction es generalizing i with
  | nil => simp [minTicks]
  | cons e es ih =>
    have h := ih (i + 1)
    have hp := hP i
    cases e <;> simp only [minTicks, ticksFrom, eventTicks] <;> omega

end Sys2Proof.Laws
end

