-- ==== Sys2Proof/Tests/Slice0.lean ====
section
/-! SUPPORT. Tests of one step or one function, with expected values from spec/, and for each statement with
hypotheses a concrete state and operands that meet them. -/

namespace Sys2Proof.Tests

open Sys2Proof.Machine

/-! ## Helpers -/

/-- "After init" of 95_test_vectors.md, with a short TRACE that leaves the lines at these levels. -/
def afterInit : State :=
  { State.reset with
    stb := some true, clk := some true, dio := some false, dioOe := some true
    sr := some 0x00#8, cnt := some 8#4, cmdl := some 0x200#11
    init := true, settle := 10
    trace := [.write .stb true, .write .clk true, .write .dio true, .dirDioOut, .delay 10,
      .write .dio false] }

/-- A state with one word presented. -/
def presenting (w : CmdWord) (s : State) : State := { s with prog := [w] }

/-- The next state of a step, if there is one. -/
def nextOf : Result → Option State
  | .next s => some s
  | .fault _ => none
  | .refused _ => none

/-- The fault a step stops with, if it does. -/
def faultOf : Result → Option Fault
  | .next _ => none
  | .fault e => some e
  | .refused _ => none

/-- The refusal a step stops with, if it does. -/
def refusalOf : Result → Option Refusal
  | .next _ => none
  | .fault _ => none
  | .refused e => some e

/-- In the middle of the SEND of 0xFF with a frame open: the first clock level is low, no bit sampled. -/
def sending : State :=
  { afterInit with
    stb := some false, clk := some false, dio := some false, cmdl := some 0x0FF#11
    sr := some 0xFF#8, cnt := some 0#4, ph := .bData
    trace := afterInit.trace ++ [.write .stb false, .write .clk false] }

/-- A fault has been taken: OPEN right after reset. -/
def faulted : State :=
  { State.reset with cmdl := some 0x100#11, fault := true, fcode := .noInit, fcmd := 0x100#11, ph := .faulted }

/-- Inside a frame, between two bytes. -/
def inFrame : Rx :=
  { Rx.start with stb := some false, clk := some true, dio := some true, inFrame := true }

/-- RST is 0 at the coming k steps and 1 at the one after. -/
def resetAfter (k : Nat) (s : State) : State := { s with rst := List.replicate k false ++ [true] }

/-- The lines at idle, by two writes. -/
def idleLines : List Event := [.write .stb true, .write .clk true]

/-! ## Well-formedness: what has no encoding is refused (43_wire_protocol.md R142, R143) -/

theorem test_addr_past_fifteen_is_ill_formed : (Instr.addr 16).wellFormed = false := by decide

theorem test_brightness_past_seven_is_ill_formed : (Instr.dispCtl 8).wellFormed = false := by decide

theorem test_last_operands_are_well_formed :
    (Instr.addr 15).wellFormed = true ∧ (Instr.dispCtl 7).wellFormed = true := by decide

/-! ## Decoding, the words written out bit by bit (95_test_vectors.md 2.1, 2.6) -/

theorem test_decode_send : decode (.c11 0b000_10100101#11) = .ok (.send 0xA5#8) := by decide
theorem test_decode_open : decode (.c11 0b001_00000000#11) = .ok .openFrame := by decide
theorem test_decode_close : decode (.c11 0b010_00000000#11) = .ok .closeFrame := by decide
theorem test_decode_idle : decode (.c11 0b011_00000000#11) = .ok .idle := by decide
theorem test_decode_wait : decode (.c11 0b100_11111111#11) = .ok (.wait 255#8) := by decide
theorem test_decode_dataMode : decode (.p8 0b01000000#8) = .ok .dataMode := by decide
theorem test_decode_addr : decode (.p8 0b11001111#8) = .ok (.addr 15) := by decide
theorem test_decode_dispCtl : decode (.p8 0b10001100#8) = .ok (.dispCtl 4) := by decide

theorem test_decode_refuses_illegal_words :
    [0x101#11, 0x1FF#11, 0x280#11, 0x301#11].all (fun w => decodeCommand w = .error .immNotZero) = true ∧
    [0x500#11, 0x600#11, 0x7FF#11].all (fun w => decodeCommand w = .error .reservedOp) = true := by decide

theorem test_decode_refuses_unlisted_payload :
    [0x87#8, 0x41#8, 0xD0#8, 0x80#8].all (fun b => decodePayload b = .error .unlistedPayload) = true := by
  decide

theorem test_encode_words :
    encode (.send 0xA5#8) = .c11 0x0A5#11 ∧ encode (.wait 10#8) = .c11 0x40A#11 ∧
    encode (.addr 6) = .p8 0xC6#8 ∧ encode (.dispCtl 4) = .p8 0x8C#8 := by decide

theorem test_table_words :
    decodeTableWord 16 0x300 = some .idle ∧ decodeTableWord 16 0x800 = none ∧
    decodeTableWord 8 0xC6 = some (.addr 6) ∧ decodeTableWord 8 0x100 = none := by decide

theorem test_placed_word_is_the_next_command :
    (State.reset.withFetchWord 16 0x40A).prog = [0x40A#11] ∧
    (State.reset.withFetchWord 8 0x40).prog = [0x040#11] := by decide

/-! ## One step of each instruction (95_test_vectors.md 2.2 to 2.5) -/

/-- SEND's acceptance, and the low bit first. -/
theorem test_send_puts_the_low_bit_first :
    (nextOf (step { sending with sr := some 0x01#8 })).map (fun t => (t.dio, t.ph)) =
      some (some true, .bWLo) := by decide

/-- The last bit of SEND 0x80: `SR` 0, `CNT` 8, `READY`. -/
theorem test_send_ends_after_eight_bits :
    (nextOf (step { sending with ph := .bWHi, sr := some 0x01#8, cnt := some 7#4 })).map
      (fun t => (t.sr, t.cnt, t.ph)) = some (some 0x00#8, some 8#4, .ready) := by decide

/-- The row "reset, SEND 0x40". -/
theorem test_send_before_idle_faults :
    (nextOf (step (presenting 0x040#11 State.reset))).map (fun t => (status t, t.fcmd, t.trace)) =
      some (0b01100#5, 0x040#11, []) := by decide

/-- The row "reset, IDLE, WAIT 9, OPEN". -/
theorem test_open_before_settled_faults :
    (nextOf (step (presenting 0x100#11 { afterInit with settle := 9 }))).map (fun t => (status t, t.fcmd)) =
      some (0b10110#5, 0x100#11) := by decide

theorem test_open_lowers_strobe :
    (nextOf (step { afterInit with ph := .fOpen })).map (fun t => (t.stb, t.ph)) =
      some (some false, .ready) := by decide

theorem test_close_raises_strobe :
    (nextOf (step { afterInit with stb := some false, ph := .fClose })).map (fun t => (t.stb, t.ph)) =
      some (some true, .ready) := by decide

/-- The row "reset, CLOSE". -/
theorem test_close_before_idle_faults :
    (nextOf (step (presenting 0x200#11 State.reset))).map (fun t => (status t, t.fcmd)) =
      some (0b01100#5, 0x200#11) := by decide

/-- The last step of IDLE: `STATUS` is 00 0 1 1, `SETTLE` 0. -/
theorem test_idle_ends_with_init :
    (nextOf (step { State.reset with ph := .iDir, settle := 7 })).map
      (fun t => (status t, t.settle, t.dioOe, t.trace)) =
      some (0b00011#5, 0, some true, [.dirDioOut]) := by decide

theorem test_idle_is_accepted_after_reset :
    (nextOf (step (presenting 0x300#11 State.reset))).map (fun t => t.ph) = some .iStb := by decide

/-- The row "reset, WAIT 255": `SETTLE` saturates at 10, `INIT` stays 0. -/
theorem test_wait_saturates :
    (nextOf (step { State.reset with ph := .wDly, cmdl := some 0x4FF#11 })).map
      (fun t => (t.settle, t.init, t.trace)) = some (10, false, [.delay 255]) := by decide

/-- The row "reset, WAIT 0". -/
theorem test_wait_zero :
    (nextOf (step { State.reset with ph := .wDly, cmdl := some 0x400#11 })).map
      (fun t => (t.settle, status t, t.trace)) = some (0, 0b00001#5, [.delay 0]) := by decide

theorem test_dataMode_is_a_send :
    (nextOf (exec .dataMode afterInit)).map (fun t => (t.sr, t.cmdl, t.ph)) =
      some (some 0x40#8, some 0x040#11, .bClkLo) := by decide

theorem test_addr_is_a_send :
    (nextOf (exec (.addr 6) afterInit)).map (fun t => (t.sr, t.cmdl)) =
      some (some 0xC6#8, some 0x0C6#11) := by decide

theorem test_addr_sixteen_is_refused :
    refusalOf (exec (.addr 16) afterInit) = some .addressHasNoEncoding := by decide

/-- The clamp of 95_test_vectors.md 2.6: a request of 9 gives 0x8F. -/
theorem test_dispCtl_clamps :
    (nextOf (exec (.dispCtl 9) afterInit)).map (fun t => t.sr) = some (some 0x8F#8) ∧
    (nextOf (exec (.dispCtl 0) afterInit)).map (fun t => t.sr) = some (some 0x88#8) := by decide

/-- Fault priority (95_test_vectors.md 2.5): 0x101 at reset is illegal, not uninitialised. -/
theorem test_illegal_is_checked_first :
    (nextOf (step (presenting 0x101#11 State.reset))).map (fun t => status t) = some 0b11100#5 ∧
    (nextOf (step (presenting 0x101#11 afterInit))).map (fun t => (status t, t.fcmd)) =
      some (0b11110#5, 0x101#11) := by decide

theorem test_faulted_is_stuck : faultOf (step (presenting 0x300#11 faulted)) = some .stuckFaulted := by decide

theorem test_reset_leaves_faulted :
    (nextOf (step { faulted with rst := [true] })).map (fun t => (status t, t.fcmd, t.trace)) =
      some (0b00001#5, 0x000#11, [.rst]) := by decide

theorem test_run_ends : refusalOf (step afterInit) = some .runEnded := by decide

/-! ## The receiver's decoder (95_test_vectors.md 2.7) -/

theorem test_frames_no_edge_from_unspecified :
    frames [.write .stb false, .write .stb true] = [] := by decide

theorem test_frames_extra_bit :
    frames (idleLines ++ [.write .stb false, .write .clk false, .write .dio true, .write .clk true,
      .write .stb true]) = [⟨[], 1, .closed⟩] := by decide

theorem test_frames_unterminated :
    frames (idleLines ++ [.write .stb false] ++ sendEvents Config.hardware 0x5A#8) =
      [⟨[some 0x5A#8], 0, .unterminated⟩] := by decide

theorem test_frames_cut :
    frames (idleLines ++ [.write .stb false] ++ (sendEvents Config.hardware 0xFF#8).take 20 ++ [.rst]) =
      [⟨[], 4, .cut⟩] := by decide

theorem test_frames_strobe_high : frames (idleLines ++ sendEvents Config.hardware 0x5A#8) = [] := by decide

/-- The DIO bits of SEND 0xA5 (95_test_vectors.md 2.2). -/
theorem test_send_bits :
    (sendEvents Config.hardware 0xA5#8).filterMap (fun e => match e with
      | .write .dio v => some v
      | _ => none) = [true, false, true, false, false, true, false, true] := by decide

/-! ## Client sequences (95_test_vectors.md section 1 and program P1) -/

theorem test_init_sequence_words :
    (initSeq 1).map Instr.command =
      [0x300#11, 0x40A#11, 0x100#11, 0x08C#11, 0x200#11, 0x100#11, 0x040#11, 0x200#11, 0x100#11, 0x0C0#11,
       0x000#11, 0x000#11, 0x200#11] := by decide

theorem test_set_power_nine :
    (ClientOp.setPower 9).expand 4 = .ok (txn [0x8F#8]) ∧
    (ClientOp.setPower (-1)).expand 4 = .error .negativeBrightness := by decide

theorem test_write_frame_is_little_endian :
    (ClientOp.writeFrame [0x1234#16]).expand 1 = .ok (txn [0x40#8] ++ txn [0xC0#8, 0x34#8, 0x12#8]) := by decide

theorem test_indicator_position_two :
    indicatorFrame 4 (.position 2) = [0x0000#16, 0x8000#16, 0x0000#16, 0x0000#16] ∧
    indicatorFrame 2 (.position 3) = [0x0000#16, 0x0000#16] := by decide

/-- S3 and S5: the glyphs, then blanks. -/
theorem test_text_is_padded :
    textFrame 2 [65] = [Config.lookup 65, Config.blank] ∧ textFrame 1 [128] = [Config.blank] := ⟨rfl, rfl⟩

/-! ## Assembler (30_encoding.md R78, R79) -/

theorem test_assembler_send_hex :
    Asm.line ['s', 'e', 'n', 'd', ' ', '0', 'x', 'A', '5', ' ', ';', 'x'] = some [.send 0xA5#8] := by decide

theorem test_assembler_refuses_256 :
    Asm.line ['W', 'A', 'I', 'T', ' ', '2', '5', '6'] = none ∧
    Asm.line ['W', 'A', 'I', 'T', ' ', '2', '5', '5'] = some [.wait 255#8] := by decide

theorem test_assembler_txn :
    Asm.line ['T', 'X', 'N', ' ', '0', 'x', 'C', '0', ',', ' ', Char.ofNat 39, 'A', Char.ofNat 39] =
      some [.openFrame, .send 0xC0#8, .send 0x41#8, .closeFrame] := by decide

/-- A quoted `;` is a character, and one outside quotes starts the comment (log 17). -/
theorem test_assembler_quoted_semicolon :
    Asm.line ['S', 'E', 'N', 'D', ' ', Char.ofNat 39, ';', Char.ofNat 39, ' ', ';', 'x'] =
      some [.send 0x3B#8] := by decide

/-! ## Timing parameters (00_scope.md R7, 60_exceptions.md R181) -/

/-- With a larger `T_INIT` the wait of `INIT_SEQ` no longer suffices: OPEN takes `F_SETTLE`. -/
theorem test_larger_T_INIT_needs_a_longer_wait :
    (nextOf (systemStep { Config.hardware with tInit := 11 } (presenting 0x100#11 afterInit))).map
      (fun t => t.fcode) = some .settle := by decide

/-- `T_STB_SETUP` is 0 here, so OPEN appends its one event. -/
theorem test_no_delay_after_strobe :
    (nextOf (step { State.reset with ph := .fOpen })).map (fun t => t.trace) = some [.write .stb false] := by
  decide

/-! ## Witnesses: for each statement with hypotheses, a state and operands that meet them -/

theorem witness_EncodedInstructionDecodesToItself :
    [Instr.send 0xFF#8, .openFrame, .closeFrame, .idle, .wait 0#8, .dataMode, .addr 0, .addr 15, .dispCtl 0,
      .dispCtl 7].all Instr.wellFormed = true := by decide

theorem witness_DecodedWordIsTheEncoding :
    decode (.c11 0x4FF#11) = .ok (.wait 255#8) ∧ decode (.p8 0xC0#8) = .ok (.addr 0) := by decide

/-- A word in each clause, at the ends of the clause's range. -/
theorem witness_DecodeIsTheTableOfOperations :
    (0x000#11).toNat / 256 = 0 ∧ (0x0FF#11).toNat / 256 = 0 ∧
    ((0x100#11).toNat / 256 = 1 ∧ (0x100#11).toNat % 256 = 0) ∧
    ((0x200#11).toNat / 256 = 2 ∧ (0x200#11).toNat % 256 = 0) ∧
    ((0x300#11).toNat / 256 = 3 ∧ (0x300#11).toNat % 256 = 0) ∧
    (0x400#11).toNat / 256 = 4 ∧ (0x4FF#11).toNat / 256 = 4 ∧
    5 ≤ (0x500#11).toNat / 256 ∧ 5 ≤ (0x7FF#11).toNat / 256 ∧
    ((0x101#11).toNat / 256 = 1 ∧ (0x101#11).toNat % 256 ≠ 0) ∧
    ((0x3FF#11).toNat / 256 = 3 ∧ (0x3FF#11).toNat % 256 ≠ 0) ∧
    presents (presenting 0x101#11 afterInit) 0x101#11 ∧ decodeCommand 0x101#11 = .error .immNotZero := by
  refine ⟨by decide, by decide, by decide, by decide, by decide, by decide, by decide, by decide, by decide,
    by decide, by decide, ⟨rfl, rfl, rfl⟩, by decide⟩

theorem witness_IllegalWordsAreThoseOfTheSpec :
    presents (presenting 0x7FF#11 State.reset) 0x7FF#11 ∧ decodeCommand 0x7FF#11 = .error .reservedOp :=
  ⟨⟨rfl, rfl, rfl⟩, by decide⟩

theorem witness_PseudoInstructionsAreTheirCommands : (0 < 16 ∧ 15 < 16) ∧ min 7 7 = 7 ∧ min 8 7 = 7 := by decide

theorem witness_StepRunsTheDecodedInstruction :
    presents (presenting 0x0A5#11 State.reset) 0x0A5#11 ∧ decodeCommand 0x0A5#11 = .ok (.send 0xA5#8) :=
  ⟨⟨rfl, rfl, rfl⟩, by decide⟩

theorem witness_StepRunsTheIssuedInstruction :
    (Instr.addr 15).wellFormed = true ∧
      presents (presenting 0x0CF#11 { afterInit with rst := [false, true] }) (Instr.addr 15).command :=
  ⟨by decide, rfl, rfl, rfl⟩

theorem witness_PlacedWordIsRunNext :
    decodeTableWord 16 0x4FF = some (.wait 255#8) ∧ decodeTableWord 8 0x8F = some (.dispCtl 7) := by decide

theorem witness_SendCompletes :
    (afterInit.init = true ∧ quiet 40 afterInit) ∧
    (resetAfter 40 afterInit).init = true ∧ quiet 40 (resetAfter 40 afterInit) := by decide

theorem witness_OpenCompletes :
    afterInit.init = true ∧ Config.hardware.tInit ≤ afterInit.settle ∧ quiet 1 afterInit ∧
    quiet 1 (resetAfter 1 afterInit) := by decide

theorem witness_CloseCompletes :
    afterInit.init = true ∧ quiet 1 afterInit ∧ quiet 1 (resetAfter 1 afterInit) := by decide

theorem witness_IdleCompletes : quiet 4 State.reset ∧ quiet 4 (resetAfter 4 State.reset) := by decide

theorem witness_WaitCompletes : quiet 1 State.reset ∧ quiet 1 (resetAfter 1 State.reset) := by decide

theorem witness_PayloadInstructionsComplete : afterInit.init = true ∧ 0 < 16 ∧ 15 < 16 := by decide

theorem witness_AddressPastFifteenIsRefused : 16 ≤ 16 ∧ 16 ≤ 300 := by decide

/-- A state in each branch: illegal, no INIT, not settled, and accepted. -/
theorem witness_AcceptanceChecksInOrder :
    presents (presenting 0x101#11 State.reset) 0x101#11 ∧
    (presents (presenting 0x100#11 State.reset) 0x100#11 ∧ State.reset.init = false) ∧
    (presents (presenting 0x100#11 { afterInit with settle := 9 }) 0x100#11 ∧ 9 < Config.hardware.tInit) ∧
    (presents (presenting 0x100#11 afterInit) 0x100#11 ∧ ¬ 10 < Config.hardware.tInit) ∧
    presents (presenting 0x000#11 { afterInit with settle := 0 }) 0x000#11 :=
  ⟨⟨rfl, rfl, rfl⟩, ⟨⟨rfl, rfl, rfl⟩, rfl⟩, ⟨⟨rfl, rfl, rfl⟩, by decide⟩, ⟨⟨rfl, rfl, rfl⟩, by decide⟩,
    rfl, rfl, rfl⟩

theorem witness_CommandsBeforeIdleFault :
    State.reset.init = false ∧
    [Instr.send 0#8, .openFrame, .closeFrame, .dataMode, .addr 15, .dispCtl 7].all
      (fun i => i.wellFormed && needsInit i.operation) = true := by decide

/-- The clauses of OPEN, of an instruction that is not OPEN in a state with that code, of WAIT and of SEND. -/
theorem witness_OpenBeforeSettledFaults :
    ({ afterInit with settle := 9 } : State).settle < Config.hardware.tInit ∧
    (∃ t, Instr.idle ≠ .openFrame ∧ exec .idle { afterInit with fcode := .settle } = .next t ∧
      t.fcode = .settle) ∧
    quiet 1 State.reset ∧ quiet 1 (resetAfter 1 State.reset) ∧ afterInit.init = true ∧ quiet 40 afterInit ∧
    quiet 40 (resetAfter 40 afterInit) :=
  ⟨by decide, ⟨_, by decide, rfl, rfl⟩, by decide, by decide, rfl, by decide, by decide⟩

theorem witness_FaultEntryWritesOnlyFaultState :
    ∃ t, (presenting 0x100#11 State.reset).ph ≠ .faulted ∧ step (presenting 0x100#11 State.reset) = .next t ∧
      t.ph = .faulted :=
  ⟨_, by decide, rfl, rfl⟩

/-- The invariant of the registers holds at rest. -/
theorem afterInit_meets_RegInv : RegInv afterInit where
  settle_le := by decide
  fault_iff := by decide
  fcode_iff := by decide
  driven := by decide
  clock := by decide
  sending := fun h => absurd h (by decide)
  opening := by decide
  closing := by decide
  idleClk := by decide
  idleDio := by decide
  idleDir := by decide
  waiting := by decide
  low_settled := by decide
  levels := fun l => by cases l <;> decide

/-- The invariant of the registers holds in the middle of a SEND. -/
theorem sending_meets_RegInv : RegInv sending where
  settle_le := by decide
  fault_iff := by decide
  fcode_iff := by decide
  driven := by decide
  clock := by decide
  sending := fun _ => ⟨by decide, by decide, 0#4, by decide, by decide⟩
  opening := by decide
  closing := by decide
  idleClk := by decide
  idleDio := by decide
  idleDir := by decide
  waiting := by decide
  low_settled := by decide
  levels := fun l => by cases l <;> decide

/-- The invariant of the receiver's view holds at rest. -/
theorem afterInit_meets_FrameInv : FrameInv afterInit where
  stb := by decide
  clk := by decide
  dio := by decide
  open_iff := by decide
  bits := fun h => absurd h (by decide)
  closed_whole := fun _ hf => (List.not_mem_nil hf).elim

/-- The invariant of the receiver's view holds in the middle of a SEND. -/
theorem sending_meets_FrameInv : FrameInv sending where
  stb := by decide
  clk := by decide
  dio := by decide
  open_iff := by decide
  bits := fun _ => ⟨rfl, fun _ hb => (List.not_mem_nil hb).elim, fun _ hb => (List.not_mem_nil hb).elim⟩
  closed_whole := fun _ hf => (List.not_mem_nil hf).elim

theorem witness_EventsNeverFault :
    (RegInv sending ∧ sending.ph.busy = true ∧ rstPort sending = false) ∧
    ∃ t, step (presenting 0x101#11 afterInit) = .next t ∧ afterInit.fault = false ∧ t.fault = true :=
  ⟨⟨sending_meets_RegInv, rfl, rfl⟩, _, rfl, rfl, rfl⟩

/-- Each shape of the samples still to come. -/
theorem witness_OnlyResetLeavesFaulted :
    faulted.ph = .faulted ∧ faulted.rst = [] ∧
    ({ faulted with rst := [false] } : State).rst = false :: [] ∧
    ({ faulted with rst := [false, true] } : State).rst = false :: [true] ∧
    ({ faulted with rst := [true] } : State).rst = true :: [] := by decide

theorem witness_ResetSetsEveryRegister : ({ sending with rst := [true] } : State).rst = true :: [] := by decide

theorem witness_FirstCommandTakenAtOnce :
    ∃ t, rstPort { presenting 0x300#11 sending with rst := [true, false] } = true ∧
      (presenting 0x300#11 sending).prog = 0x300#11 :: [] ∧
      step { presenting 0x300#11 sending with rst := [true, false] } = .next t ∧ rstPort t = false :=
  ⟨_, rfl, rfl, rfl, rfl⟩

theorem witness_LineWriters : ∃ t, step sending = .next t ∧ rstPort sending = false := ⟨_, rfl, rfl⟩

theorem witness_ShiftRegisterWriters :
    ∃ t, step { sending with ph := .bWHi } = .next t ∧ rstPort sending = false := ⟨_, rfl, rfl⟩

/-- With a word presented, and with none. -/
theorem witness_CommandLatchWriters :
    (∃ t, step (presenting 0x0A5#11 afterInit) = .next t ∧ presents (presenting 0x0A5#11 afterInit) 0x0A5#11) ∧
    ∃ t, step sending = .next t ∧ rstPort sending = false ∧ ∀ w, ¬ presents sending w :=
  ⟨⟨_, rfl, rfl, rfl, rfl⟩, _, rfl, rfl, fun _ h => absurd h.1 (by decide)⟩

/-- A reset, the last phase of IDLE, an event T(n), and another step. -/
theorem witness_InitAndSettleWriters :
    (∃ t, step { sending with rst := [true] } = .next t) ∧
    (∃ t, step { State.reset with ph := .iDir } = .next t) ∧
    (∃ t, step { sending with ph := .bWLo } = .next t) ∧ ∃ t, step sending = .next t :=
  ⟨⟨_, rfl⟩, ⟨_, rfl⟩, ⟨_, rfl⟩, _, rfl⟩

/-- An acceptance, and a step of each phase of an operation with a reset to come after it. -/
theorem witness_TraceIsAppendOnly :
    (∃ t, step (presenting 0x0A5#11 afterInit) = .next t ∧ presents (presenting 0x0A5#11 afterInit) 0x0A5#11) ∧
    rstPort (resetAfter 1 sending) = false ∧
    [Phase.bClkLo, .bData, .bWLo, .bClkHi, .bWHi, .fOpen, .fClose, .iStb, .iClk, .iDio, .iDir, .wDly].all
      (fun ph => ph.busy && (nextOf (step { resetAfter 1 sending with ph := ph })).isSome) = true :=
  ⟨⟨_, rfl, rfl, rfl, rfl⟩, rfl, by decide⟩

theorem witness_CommandIsHeldUntilReady :
    (∃ t, step (presenting 0x0A5#11 afterInit) = .next t ∧ accepts (presenting 0x0A5#11 afterInit) = true) ∧
    ∃ t, step (presenting 0x0A5#11 sending) = .next t ∧ accepts (presenting 0x0A5#11 sending) = false :=
  ⟨⟨_, rfl, rfl⟩, _, rfl, rfl⟩

theorem witness_StepKeepsInv : ∃ t, RegInv sending ∧ step sending = .next t := ⟨_, sending_meets_RegInv, rfl⟩

theorem witness_StepKeepsFrameInv :
    ∃ t, RegInv sending ∧ FrameInv sending ∧ step sending = .next t :=
  ⟨_, sending_meets_RegInv, sending_meets_FrameInv, rfl⟩

theorem witness_UnspecifiedIsNeverRead : RegInv sending ∧ RegInv afterInit :=
  ⟨sending_meets_RegInv, afterInit_meets_RegInv⟩

theorem witness_ReadOfUnspecifiedStops :
    (rstPort State.reset = false ∧ State.reset.sr = none ∧ State.reset.cmdl = none) ∧
    ({ State.reset with ph := .bData } : State).ph = .bData ∧
    ({ State.reset with ph := .bWHi, sr := some 0#8 } : State).cnt = none ∧
    ({ State.reset with ph := .wDly } : State).ph = .wDly := by decide

theorem witness_LinesAtRest :
    RegInv afterInit ∧ runSteps 0 afterInit = .next afterInit ∧ afterInit.ph = .ready ∧ afterInit.init = true :=
  ⟨afterInit_meets_RegInv, rfl, rfl, rfl⟩

theorem witness_WritesKeepTheClock :
    ∃ t, RegInv sending ∧ sending.init = true ∧ step sending = .next t ∧
      t.trace = sending.trace ++ [.write .dio true] :=
  ⟨_, sending_meets_RegInv, rfl, rfl, rfl⟩

theorem witness_OperationsEnd :
    RegInv sending ∧ sending.ph.busy = true ∧ stepsLeft sending = 39 ∧ quiet 39 sending ∧
    quiet 39 (resetAfter 39 sending) :=
  ⟨sending_meets_RegInv, rfl, rfl, by decide, by decide⟩

theorem witness_PayloadIsNotRead :
    ∃ t t', (resetAfter 40 afterInit).init = true ∧ quiet 40 (resetAfter 40 afterInit) ∧ 40 ≤ 40 ∧
      exec (.send 0x00#8) (resetAfter 40 afterInit) = .next t ∧
      exec (.send 0xFF#8) (resetAfter 40 afterInit) = .next t' :=
  ⟨_, _, rfl, by decide, by decide, rfl, rfl⟩

/-- Both cases: a program that meets the boot requirements, and P5's, which does not. -/
theorem witness_ProgramRunsInOrderOrFaults :
    let good : List Instr := [.idle, .wait 10#8, .openFrame, .addr 15, .closeFrame]
    let bad : List Instr := [.wait 20#8, .openFrame, .send 0x40#8]
    let k := good.length + (good.flatMap (instrEvents Config.hardware)).length
    (load good State.reset).ph = .ready ∧ k = 52 ∧ quiet 52 (load good (resetAfter 52 State.reset)) ∧
    good.all Instr.wellFormed = true ∧ (load good State.reset).prog = good.map Instr.command ∧
    faultFree Config.hardware false 0 good = true ∧
    bad.all Instr.wellFormed = true ∧ faultFree Config.hardware false 0 bad = false := by decide

theorem witness_SentByteIsReassembled :
    inFrame.inFrame = true ∧ inFrame.clk = some true ∧ inFrame.bits = [] := by decide

theorem witness_FramesOfTransactionsInOrder :
    (Rx.start.run []).stb ≠ some false ∧
    (Rx.start.run idleLines).stb = some true ∧ (Rx.start.run idleLines).clk = some true :=
  by decide

/-- The cut after 0, 38, 39 and 40 events: 0 bits, 7 bits, a whole byte, a whole byte. -/
theorem witness_SpecialFrames :
    (Rx.start.run idleLines).stb = some true ∧ (Rx.start.run idleLines).clk = some true ∧
    (0 ≤ 40 ∧ 0 < 39 ∧ (0 + 1) / 5 = 0) ∧ (38 ≤ 40 ∧ 38 < 39 ∧ (38 + 1) / 5 = 7) ∧
    (39 ≤ 40 ∧ ¬ 39 < 39) ∧ 40 ≤ 40 := by decide

theorem witness_NestedTransactionEndsEarly :
    (Rx.start.run idleLines).stb = some true ∧ (Rx.start.run idleLines).clk = some true :=
  by decide

/-- With two bytes and with none, and with a reset to come after the last step. -/
theorem witness_TransactionIsTransparent :
    let s := load (txn [0x12#8, 0x34#8]) afterInit
    let e := load (txn []) afterInit
    RegInv s ∧ FrameInv s ∧ s.ph = .ready ∧ s.init = true ∧ s.settle = Config.hardware.tInit ∧
    s.stb = some true ∧ quiet (41 * 2 + 4) s ∧ quiet (41 * 2 + 4) (resetAfter 86 s) ∧
    s.prog = (txn [0x12#8, 0x34#8]).map Instr.command ++ [] ∧
    quiet (41 * 0 + 4) e ∧ e.prog = (txn []).map Instr.command ++ [] := by
  obtain ⟨i1, i2, i3, i4, i5, i6, i7, i8, i9, i10, i11, i12, i13, i14⟩ := afterInit_meets_RegInv
  obtain ⟨f1, f2, f3, f4, f5, f6⟩ := afterInit_meets_FrameInv
  exact ⟨⟨i1, i2, i3, i4, i5, i6, i7, i8, i9, i10, i11, i12, i13, i14⟩, ⟨f1, f2, f3, f4, f5, f6⟩, rfl, rfl,
    rfl, rfl, by decide, by decide, rfl, by decide, rfl⟩

/-- The first and the last address. -/
theorem witness_DataBytesReachNextAddresses :
    (15 < 16 ∧ 15 + [0xAA#8].length ≤ 16) ∧ (0 < 16 ∧ 0 + (List.replicate 16 0xAA#8).length ≤ 16) := by decide

theorem witness_PayloadByteLayouts : 0 < 16 ∧ 15 < 16 := by decide

theorem witness_BrightnessIsClamped : (1 ≤ 1 ∧ 1 ≤ 16) ∧ (1 ≤ 16 ∧ 16 ≤ 16) ∧ (-1 : Int) < 0 := by decide

theorem witness_TextFrameIsGlyphsThenBlanks :
    0 < 1 ∧ 15 < 16 ∧ (1 ≤ 1 ∧ 1 ≤ 16) ∧ (1 ≤ 16 ∧ 16 ≤ 16) ∧ [127][0]? = some 127 ∧ [127][1]? = none ∧ 127 < 128 ∧ ¬ 128 < 128 := by decide

theorem witness_IndicatorFrameHasOneBit :
    (Selector.position 3 = .position (2 + 1) ∧ 2 < 3 ∧ 2 < 16) ∧ (¬ 3 < 3 ∧ 3 < 16) ∧
    (1 ≤ 1 ∧ 1 ≤ 16) ∧ 1 ≤ 16 ∧ 16 ≤ 16 := by decide

theorem witness_ClientFramesAreTheBytesOfTheSpec :
    (1 ≤ 1 ∧ 1 ≤ 16) ∧ 16 ≤ 16 ∧ (1 ≤ [0xFFFF#16].length ∧ [0xFFFF#16].length ≤ 1) ∧
    ([] : List Mask).length = 0 ∧ 1 < [0#16, 0#16].length := by decide

theorem witness_ClientSequencesTakeNoFault :
    ∃ is, expandAll 1 [.init, .setPower 9, .writeFrame [0x1234#16]] = .ok is ∧
      runSteps 0 (load is State.reset) = .next (load is State.reset) :=
  ⟨_, rfl, rfl⟩

theorem witness_ClientSequencesRunToTheEnd :
    ∃ is, expandAll 16 [.init, .allOn, .setIndicator (.position 3), .allOff] = .ok is := ⟨_, rfl⟩

theorem witness_MinimumDurations : ∀ k, 0 ≤ Config.pinLatency k := fun _ => Nat.zero_le _

theorem witness_ClockLevelsDwell : 0 < 8 ∧ 7 < 8 := by decide

theorem witness_AssemblerNeverWrapsAnImmediate :
    Asm.number ['2', '5', '5'] = some 255 ∧ Asm.number ['0', 'x', '1', '0', '0'] = some 256 ∧
    ('A' : Char).toNat < 256 ∧ (Char.ofNat 255).toNat < 256 ∧ 256 ≤ (Char.ofNat 256).toNat ∧
    255 < 256 ∧ 256 ≤ 256 := by decide

end Sys2Proof.Tests
end

section
/-! PROOF. Reading ⊥ stops the machine (00_scope.md R10, 60_exceptions.md R171). -/

namespace Sys2Proof.Laws

open Sys2Proof.Machine

/-- `B_DATA` reads `SR` (10_state.md R26). -/
theorem perform_bData_unspecified {p : Params} {s : State} (hp : s.ph = .bData) (hsr : s.sr = none) :
    perform p s = .fault .readUnspecified := by
  simp [perform, phaseData, hp, hsr]

/-- `B_WHI` reads both `SR` and `CNT` (10_state.md R26). -/
theorem perform_bWHi_unspecified {p : Params} {s : State} (hp : s.ph = .bWHi)
    (hr : s.sr = none ∨ s.cnt = none) : perform p s = .fault .readUnspecified := by
  rcases hr with hsr | hcnt
  · simp [perform, phaseWHi, hp, hsr]
  · simp [perform, phaseWHi, hp, hcnt]

/-- `W_DLY` reads its operand from `CMDL` (10_state.md R26, 42_control.md R121). -/
theorem perform_wDly_unspecified {p : Params} {s : State} (hp : s.ph = .wDly) (hc : s.cmdl = none) :
    perform p s = .fault .readUnspecified := by
  simp [perform, phaseWait, hp, hc]

/-- Settles O37: with no reset applied the step of a busy phase is that phase's event, and taking the sample
of `RST` leaves the register it reads as it is. -/
theorem readOfUnspecifiedStops : Obligations.ReadOfUnspecifiedStops := by
  intro s hrst
  refine ⟨fun hp hsr => ?_, fun hp hr => ?_, fun hp hc => ?_⟩
  · rw [step_busy (by simp [hp, Phase.busy]) hrst]
    exact perform_bData_unspecified hp hsr
  · rw [step_busy (by simp [hp, Phase.busy]) hrst]
    exact perform_bWHi_unspecified hp hr
  · rw [step_busy (by simp [hp, Phase.busy]) hrst]
    exact perform_wDly_unspecified hp hc

end Sys2Proof.Laws
end

section
/-! PROOF. The kinds of a step, with a name for each case: a reset, the acceptance of a word, the event of a
phase, or only the passing of a sample of `RST` (10_state.md R26, R27; 60_exceptions.md R174). -/

namespace Sys2Proof.Laws

open Sys2Proof.Machine

/-- What the acceptance of the presented word w leads to (60_exceptions.md R174). -/
inductive AcceptStep (s : State) (w : CmdWord) : State → Prop
  | fault (c : FaultCode) (hc : c ≠ .none) : AcceptStep s w (enterFault c w (latch w (takeWord s)))
  | send (v : Byte) (hd : decodeCommand w = .ok (.send v)) (hi : s.init = true) :
      AcceptStep s w (startSend v (latch w (takeWord s)))
  | openFrame (hi : s.init = true) (hs : Config.hardware.tInit ≤ s.settle) :
      AcceptStep s w ((latch w (takeWord s)).goto .fOpen)
  | closeFrame (hi : s.init = true) : AcceptStep s w ((latch w (takeWord s)).goto .fClose)
  | idle : AcceptStep s w ((latch w (takeWord s)).goto .iStb)
  | wait : AcceptStep s w ((latch w (takeWord s)).goto .wDly)

/-- What the event of each phase of an operation leads to (10_state.md R26). -/
inductive EventStep (s : State) : State → Prop
  | bClkLo (hp : s.ph = .bClkLo) : EventStep s ((pinWrite .clk false (takeSample s)).goto .bData)
  | bData (hp : s.ph = .bData) (v : Byte) (hsr : s.sr = some v) :
      EventStep s ((pinWrite .dio (lowBit v) (takeSample s)).goto .bWLo)
  | bWLo (hp : s.ph = .bWLo) :
      EventStep s ((delay Config.hardware Config.hardware.tBit (takeSample s)).goto .bClkHi)
  | bClkHi (hp : s.ph = .bClkHi) : EventStep s ((pinWrite .clk true (takeSample s)).goto .bWHi)
  | bWHi (hp : s.ph = .bWHi) (v : Byte) (c : BitVec 4) (hsr : s.sr = some v) (hcnt : s.cnt = some c) :
      EventStep s (endBit v c (delay Config.hardware Config.hardware.tBit (takeSample s)))
  | fOpen (hp : s.ph = .fOpen) : EventStep s ((pinWrite .stb false (takeSample s)).goto .ready)
  | fClose (hp : s.ph = .fClose) : EventStep s ((pinWrite .stb true (takeSample s)).goto .ready)
  | iStb (hp : s.ph = .iStb) : EventStep s ((pinWrite .stb true (takeSample s)).goto .iClk)
  | iClk (hp : s.ph = .iClk) : EventStep s ((pinWrite .clk true (takeSample s)).goto .iDio)
  | iDio (hp : s.ph = .iDio) : EventStep s ((pinWrite .dio true (takeSample s)).goto .iDir)
  | iDir (hp : s.ph = .iDir) : EventStep s (endIdle (pinDirOut (takeSample s)))
  | wDly (hp : s.ph = .wDly) (w : CmdWord) (hw : s.cmdl = some w) :
      EventStep s ((delay Config.hardware (waitOperand w) (takeSample s)).goto .ready)

/-- The kinds of a step. `pass` is the step of no agent (log 9). -/
inductive StepKind (s : State) : State → Prop
  | reset (hr : rstPort s = true) : StepKind s (applyReset (takeSample s))
  | accept {t : State} (w : CmdWord) (hw : presents s w) (ha : AcceptStep s w t) : StepKind s t
  | event {t : State} (hr : rstPort s = false) (he : EventStep s t) : StepKind s t
  | pass (hr : rstPort s = false) (hq : runEnded s ∨ s.ph = .faulted) : StepKind s (takeSample s)

/-- Every step is of one of these kinds. -/
theorem step_kind {s t : State} (h : step s = .next t) : StepKind s t := by
  rcases step_inversion h with ⟨hr, rfl⟩ | ⟨w, hw, ha⟩ | ⟨hr, -, he⟩ | ⟨hr, hq, rfl⟩
  · exact .reset hr
  · refine .accept w hw ?_
    rcases ha with ⟨c, hc, rfl⟩ | ⟨v, hd, hi, rfl⟩ | ⟨-, hi, hs, rfl⟩ | ⟨-, hi, rfl⟩ | ⟨-, rfl⟩ | ⟨-, -, rfl⟩
    · exact .fault c hc
    · exact .send v hd hi
    · exact .openFrame hi hs
    · exact .closeFrame hi
    · exact .idle
    · exact .wait
  · refine .event hr ?_
    rcases he with ⟨hp, rfl⟩ | ⟨hp, v, hv, rfl⟩ | ⟨hp, rfl⟩ | ⟨hp, rfl⟩ | ⟨hp, v, c, hv, hc, rfl⟩ |
      ⟨hp, rfl⟩ | ⟨hp, rfl⟩ | ⟨hp, rfl⟩ | ⟨hp, rfl⟩ | ⟨hp, rfl⟩ | ⟨hp, rfl⟩ | ⟨hp, w, hw, rfl⟩
    · exact .bClkLo hp
    · exact .bData hp v hv
    · exact .bWLo hp
    · exact .bClkHi hp
    · exact .bWHi hp v c hv hc
    · exact .fOpen hp
    · exact .fClose hp
    · exact .iStb hp
    · exact .iClk hp
    · exact .iDio hp
    · exact .iDir hp
    · exact .wDly hp w hw
  · exact .pass hr hq

/-! ## When a word is presented -/

theorem presents_rst {s : State} {w : CmdWord} (h : presents s w) : rstPort s = false := h.2.2

/-- The presented word is the first of the client's list. -/
theorem presents_prog {s : State} {w : CmdWord} (h : presents s w) : s.prog = w :: s.prog.tail := by
  obtain ⟨-, hw, -⟩ := h
  exact (List.cons_head?_tail hw).symm

theorem presents_unique {s : State} {w x : CmdWord} (hw : presents s w) (hx : presents s x) : x = w :=
  Option.some.inj (hx.2.1.symm.trans hw.2.1)

/-- `CMD_VALID` and `CMD_READY` with no reset: a word is presented (10_state.md R33, 70_reset_and_hazards.md
R190). -/
theorem accepts_iff (s : State) : accepts s = true ↔ ∃ w, presents s w := by
  cases hp : s.prog <;> simp [accepts, cmdValid, cmdReady, rdy, presents, hp]

/-- Where no agent has a step, no word is presented. -/
theorem not_presents_of_pass {s : State} (hq : runEnded s ∨ s.ph = .faulted) (w : CmdWord) :
    ¬ presents s w := by
  rintro ⟨hp, hw, -⟩
  rcases hq with ⟨hnil, -⟩ | hf
  · simp [hnil] at hw
  · simp [hp] at hf

/-! ## What an acceptance leaves unchanged, and what an event does -/

/-- Acceptance latches the word, takes it from the client, and leaves the lines, `INIT`, `SETTLE` and TRACE
as they are (10_state.md R27, R28). -/
structure AcceptFrame (s : State) (w : CmdWord) (t : State) : Prop where
  stb : t.stb = s.stb
  clk : t.clk = s.clk
  dio : t.dio = s.dio
  dioOe : t.dioOe = s.dioOe
  init : t.init = s.init
  settle : t.settle = s.settle
  trace : t.trace = s.trace
  cmdl : t.cmdl = some w
  prog : t.prog = s.prog.tail

theorem AcceptStep.frame {s t : State} {w : CmdWord} (h : AcceptStep s w t) : AcceptFrame s w t := by
  cases h <;> exact ⟨rfl, rfl, rfl, rfl, rfl, rfl, rfl, rfl, rfl⟩

theorem EventStep.busy {s t : State} (h : EventStep s t) : s.ph.busy = true := by
  cases h <;> simp [*, Phase.busy]

/-- No word is presented during an operation. -/
theorem EventStep.not_presents {s t : State} (h : EventStep s t) (w : CmdWord) : ¬ presents s w := by
  intro hw
  simpa [presents_not_busy hw] using h.busy

/-- An event leaves the command latch and the client's list as they are (10_state.md R28, R33). -/
theorem EventStep.cmdl_prog {s t : State} (h : EventStep s t) : t.cmdl = s.cmdl ∧ t.prog = s.prog := by
  cases h <;> exact ⟨rfl, rfl⟩

/-- An event appends one entry to TRACE and writes the lines as that entry says (10_state.md R30,
70_reset_and_hazards.md R193). -/
theorem EventStep.emits {s t : State} (h : EventStep s t) :
    ∃ e, t.trace = s.trace ++ [e] ∧ ∀ l, t.line l = traceLevelStep l (s.line l) e := by
  cases h <;> exact ⟨_, rfl, fun l => by cases l <;> rfl⟩

/-- A step leaves TRACE and the lines as they are, or appends one entry and writes the lines as it says. -/
theorem step_emits {s t : State} (h : step s = .next t) :
    (t.trace = s.trace ∧ ∀ l, t.line l = s.line l) ∨
    ∃ e, t.trace = s.trace ++ [e] ∧ ∀ l, t.line l = traceLevelStep l (s.line l) e := by
  cases step_kind h with
  | reset _ => exact .inr ⟨.rst, rfl, fun l => by cases l <;> rfl⟩
  | accept w _ ha => exact .inl ⟨ha.frame.trace, fun l => by cases l <;> cases ha <;> rfl⟩
  | event _ he => exact .inr he.emits
  | pass _ _ => exact .inl ⟨rfl, fun l => by cases l <;> rfl⟩

end Sys2Proof.Laws
end

section
/-! PROOF. Who writes what (10_state.md R21 to R30, R33), each statement by the kind of the step. -/

namespace Sys2Proof.Laws

open Sys2Proof.Machine

/-- The lines that the event of a phase writes (10_state.md R21, R22, R23). -/
theorem EventStep.lineWriters {s t : State} (h : EventStep s t) :
    (t.stb = s.stb ∨ s.ph = .fOpen ∧ t.stb = some false ∨
      (s.ph = .fClose ∨ s.ph = .iStb) ∧ t.stb = some true) ∧
    (t.clk = s.clk ∨ s.ph = .bClkLo ∧ t.clk = some false ∨
      (s.ph = .bClkHi ∨ s.ph = .iClk) ∧ t.clk = some true) ∧
    (t.dio = s.dio ∨ s.ph = .bData ∧ (∃ v, s.sr = some v ∧ t.dio = some (v.getLsbD 0)) ∨
      s.ph = .iDio ∧ t.dio = some true) ∧
    (t.dioOe = s.dioOe ∨ s.ph = .iDir ∧ t.dioOe = some true) := by
  cases h with
  | bData hp v hv => simp [hp, hv, lowBit]
  | _ => simp [*]

/-- Settles O26: an acceptance writes no line, an event only that of its phase. -/
theorem lineWriters : Obligations.LineWriters := by
  intro s t h hr
  cases step_kind h with
  | reset hr' => simp [hr] at hr'
  | accept w _ ha => exact ⟨.inl ha.frame.stb, .inl ha.frame.clk, .inl ha.frame.dio, .inl ha.frame.dioOe⟩
  | event _ he => exact he.lineWriters
  | pass _ _ => exact ⟨.inl rfl, .inl rfl, .inl rfl, .inl rfl⟩

/-- Settles O27: among the acceptances SEND writes `SR` and `CNT`, among the events that of B_WHI. -/
theorem shiftRegisterWriters : Obligations.ShiftRegisterWriters := by
  intro s t h hr
  cases step_kind h with
  | reset hr' => simp [hr] at hr'
  | accept w hw ha =>
    cases ha with
    | send v hd _ => exact .inr (.inl ⟨w, v, hw, hd, rfl, rfl⟩)
    | _ => exact .inl ⟨rfl, rfl⟩
  | event _ he =>
    cases he with
    | bWHi hp v c hv hc => exact .inr (.inr ⟨hp, v, c, hv, hc, rfl, rfl⟩)
    | _ => exact .inl ⟨rfl, rfl⟩
  | pass _ _ => exact .inl ⟨rfl, rfl⟩

/-- Settles O28: acceptance latches the one word presented; in the other steps none is presented. -/
theorem commandLatchWriters : Obligations.CommandLatchWriters := by
  intro s t h hr
  cases step_kind h with
  | reset hr' => simp [hr] at hr'
  | accept w hw ha =>
    refine ⟨fun x hx => ?_, fun hn => absurd hw (hn w)⟩
    rw [presents_unique hw hx]
    exact ha.frame.cmdl
  | event _ he => exact ⟨fun w hw => absurd hw (he.not_presents w), fun _ => he.cmdl_prog.1⟩
  | pass _ hq => exact ⟨fun w hw => absurd hw (not_presents_of_pass hq w), fun _ => rfl⟩

/-- Settles O31: `CMD_VALID` and `CMD_READY` with no reset is the presenting of a word, which acceptance takes
off the client's list. -/
theorem commandIsHeldUntilReady : Obligations.CommandIsHeldUntilReady := by
  intro s t h
  rw [← Bool.not_eq_true, accepts_iff]
  cases step_kind h with
  | reset hr => exact ⟨fun ⟨w, hw⟩ => by simp [presents_rst hw] at hr, fun _ => rfl⟩
  | accept w hw ha =>
    refine ⟨fun _ => ⟨w, hw, ?_⟩, fun hn => absurd ⟨w, hw⟩ hn⟩
    rw [ha.frame.prog]
    exact presents_prog hw
  | event _ he => exact ⟨fun ⟨w, hw⟩ => absurd hw (he.not_presents w), fun _ => he.cmdl_prog.2⟩
  | pass _ hq => exact ⟨fun ⟨w, hw⟩ => absurd hw (not_presents_of_pass hq w), fun _ => rfl⟩

/-! ## `INIT` and `SETTLE` -/

/-- An event other than the last of IDLE leaves `INIT`; `SETTLE` changes with the event T(n) only (10_state.md
R29, 00_scope.md R11). -/
theorem EventStep.initAndSettle {s t : State} (h : EventStep s t) :
    (s.ph = .iDir ∧ t.init = true ∧ t.settle = 0) ∨
    (s.ph ≠ .iDir ∧ t.init = s.init ∧
      ((∃ n, t.trace = s.trace ++ [.delay n] ∧ t.settle = min (s.settle + n) Config.hardware.tInit) ∨
       (∀ n, t.trace ≠ s.trace ++ [.delay n]) ∧ t.settle = s.settle)) := by
  cases h with
  | iDir hp => exact .inl ⟨hp, rfl, rfl⟩
  | bWLo hp => exact .inr ⟨by simp [hp], rfl, .inl ⟨_, rfl, rfl⟩⟩
  | bWHi hp => exact .inr ⟨by simp [hp], rfl, .inl ⟨_, rfl, rfl⟩⟩
  | wDly hp => exact .inr ⟨by simp [hp], rfl, .inl ⟨_, rfl, rfl⟩⟩
  | _ => exact .inr ⟨by simp [*], rfl, .inr ⟨by simp, rfl⟩⟩

/-- Settles O29: a reset clears both registers, an acceptance leaves both, and an event is as
`EventStep.initAndSettle` says. -/
theorem initAndSettleWriters : Obligations.InitAndSettleWriters := by
  intro s t h
  cases step_kind h with
  | reset hr => exact .inl ⟨hr, rfl, rfl⟩
  | accept w hw ha =>
    have hp : s.ph ≠ .iDir := by simp [hw.1]
    exact .inr (.inr ⟨presents_rst hw, hp, ha.frame.init, .inr ⟨by simp [ha.frame.trace], ha.frame.settle⟩⟩)
  | event hr he =>
    rcases he.initAndSettle with ⟨hp, hi, hs⟩ | ⟨hp, hi, hs⟩
    · exact .inr (.inl ⟨hr, hp, hi, hs⟩)
    · exact .inr (.inr ⟨hr, hp, hi, hs⟩)
  | pass hr hq =>
    have hp : s.ph ≠ .iDir := by
      rcases hq with ⟨-, hp⟩ | hp <;> simp [hp]
    exact .inr (.inr ⟨hr, hp, rfl, .inr ⟨by simp, rfl⟩⟩)

end Sys2Proof.Laws
end

section
/-! PROOF. TRACE is append-only, and each phase performs its row of the phase table (10_state.md R26, R30). -/

namespace Sys2Proof.Laws

open Sys2Proof.Machine

/-- `CNT` says that a SEND goes on below 8 (10_state.md R25). -/
theorem phase_after_bit (c : BitVec 4) :
    (if sendComplete c then Phase.ready else .bClkLo) = if c.toNat < 8 then .bClkLo else .ready := by
  by_cases hc : c.toNat < 8
  · simp [sendComplete, hc]
  · simp [sendComplete, hc, Nat.le_of_not_lt hc]

/-- The operand of WAIT is the word modulo 256 (30_encoding.md R70, R73). -/
theorem waitOperand_eq (w : CmdWord) : waitOperand w = w.toNat % 256 := (fields_toNat w).2

/-- The step that accepts a word appends nothing (10_state.md R27). -/
theorem trace_of_presents {s t : State} {w : CmdWord} (h : step s = .next t) (hw : presents s w) :
    t.trace = s.trace := by
  cases step_kind h with
  | reset hr => simp [presents_rst hw] at hr
  | accept _ _ ha => exact ha.frame.trace
  | event _ he => exact absurd hw (he.not_presents w)
  | pass _ _ => rfl

/-- A step during an operation appends one entry, an event or `Rst` (10_state.md R26, 70_reset_and_hazards.md
R193). -/
theorem trace_of_busy {s t : State} (h : step s = .next t) (hb : s.ph.busy = true) :
    ∃ e, t.trace = s.trace ++ [e] := by
  cases step_kind h with
  | reset _ => exact ⟨.rst, rfl⟩
  | accept _ hw _ => simp [presents_not_busy hw] at hb
  | event _ he =>
    obtain ⟨e, htr, -⟩ := he.emits
    exact ⟨e, htr⟩
  | pass _ hq => rcases hq with ⟨-, hp⟩ | hp <;> simp [hp, Phase.busy] at hb

/-- Settles O30: an event meets the row of its own phase, and every other row speaks of another phase. -/
theorem traceIsAppendOnly : Obligations.TraceIsAppendOnly := by
  intro s t h
  refine ⟨?_, fun w hw => trace_of_presents h hw, trace_of_busy h, fun hr => ?_⟩
  · rcases step_emits h with ⟨htr, -⟩ | ⟨e, htr, -⟩
    · exact .inl htr
    · exact .inr ⟨e, htr⟩
  cases step_kind h with
  | reset hr' => simp [hr] at hr'
  | accept w hw _ => simp [hw.1]
  | pass _ hq => rcases hq with ⟨-, hp⟩ | hp <;> simp [hp]
  | event _ he =>
    cases he with
    | bData hp v hv =>
      simp only [hp, reduceCtorEq, false_implies, true_implies, true_and, and_true]
      exact ⟨v, hv, rfl⟩
    | bWHi hp v c hv hc =>
      simp only [hp, reduceCtorEq, false_implies, true_implies, true_and, and_true, ← phase_after_bit]
      exact ⟨v, c, hv, hc, rfl⟩
    | wDly hp w hw =>
      simp only [hp, reduceCtorEq, false_implies, true_implies, true_and, ← waitOperand_eq]
      exact ⟨w, hw, rfl⟩
    | _ hp => simp [hp]; rfl

end Sys2Proof.Laws
end

section
/-! PROOF. Every step keeps the invariant of the registers, field by field; the fields that speak of one phase
are taken together (10_state.md R26 to R31, R38, R39). -/

namespace Sys2Proof.Laws

open Sys2Proof.Machine

/-! ## The fault registers -/

/-- A step clears the fault registers, takes a fault, or leaves them and stays in or out of `FAULTED`
(10_state.md R31, 60_exceptions.md R175, R176). -/
theorem step_fault {s t : State} (h : step s = .next t) :
    (t.fault = false ∧ t.fcode = .none ∧ t.ph = .ready) ∨
    (t.fault = true ∧ t.fcode ≠ .none ∧ t.ph = .faulted) ∨
    (t.fault = s.fault ∧ t.fcode = s.fcode ∧ (t.ph = .faulted ↔ s.ph = .faulted)) := by
  cases step_kind h with
  | reset _ => exact .inl ⟨rfl, rfl, rfl⟩
  | accept w hw ha =>
    cases ha with
    | fault c hc => exact .inr (.inl ⟨rfl, hc, rfl⟩)
    | _ => exact .inr (.inr ⟨rfl, rfl, by simp [hw.1]⟩)
  | event _ he =>
    cases he with
    | bWHi hp v c => exact .inr (.inr ⟨rfl, rfl, by rw [endBit_ph]; split <;> simp [hp]⟩)
    | _ hp => exact .inr (.inr ⟨rfl, rfl, by simp [hp]⟩)
  | pass _ _ => exact .inr (.inr ⟨rfl, rfl, .rfl⟩)

theorem step_keeps_fault_iff {s t : State} (h : RegInv s) (hst : step s = .next t) :
    t.fault = true ↔ t.ph = .faulted := by
  rcases step_fault hst with ⟨hf, -, hp⟩ | ⟨hf, -, hp⟩ | ⟨hf, -, hp⟩
  · simp [hf, hp]
  · simp [hf, hp]
  · rw [hf, hp, h.fault_iff]

theorem step_keeps_fcode_iff {s t : State} (h : RegInv s) (hst : step s = .next t) :
    t.fault = false ↔ t.fcode = .none := by
  rcases step_fault hst with ⟨hf, hc, -⟩ | ⟨hf, hc, -⟩ | ⟨hf, hc, -⟩
  · simp [hf, hc]
  · simp [hf, hc]
  · rw [hf, hc, h.fcode_iff]

/-! ## `SETTLE` and the lines -/

theorem step_keeps_settle_le {s t : State} (h : RegInv s) (hst : step s = .next t) :
    t.settle ≤ Config.hardware.tInit := by
  rcases initAndSettleWriters s t hst with ⟨-, -, hs⟩ | ⟨-, -, -, hs⟩ | ⟨-, -, -, ⟨n, -, hs⟩ | ⟨-, hs⟩⟩
  · simp [hs]
  · simp [hs]
  · rw [hs]
    exact Nat.min_le_right _ _
  · rw [hs]
    exact h.settle_le

theorem step_keeps_levels {s t : State} (h : RegInv s) (hst : step s = .next t) (l : Line) :
    traceLevel l t.trace = t.line l := by
  rcases step_emits hst with ⟨htr, hl⟩ | ⟨e, htr, hl⟩
  · rw [htr, hl, h.levels]
  · rw [htr, hl, traceLevel_snoc, h.levels]

theorem step_keeps_driven {s t : State} (h : RegInv s) (hst : step s = .next t) (hi : t.init = true) :
    t.stb.isSome = true ∧ t.dio.isSome = true ∧ t.dioOe = some true := by
  cases step_kind hst with
  | reset _ => simp at hi
  | accept w _ ha =>
    have hf := ha.frame
    rw [hf.stb, hf.dio, hf.dioOe]
    exact h.driven (hf.init ▸ hi)
  | event _ he =>
    cases he with
    | iDir hp =>
      obtain ⟨hstb, -, hdio⟩ := h.idleDir hp
      simp [hstb, hdio]
    | _ =>
      obtain ⟨hstb, hdio, hoe⟩ := h.driven hi
      simp [hstb, hdio, hoe]
  | pass _ _ => exact h.driven hi

/-- No phase that an acceptance enters has CLK low. -/
theorem AcceptStep.clockLow {s t : State} {w : CmdWord} (h : AcceptStep s w t) : t.ph.clockLow = false := by
  cases h <;> rfl

theorem step_keeps_clock {s t : State} (h : RegInv s) (hst : step s = .next t) (hi : t.init = true) :
    t.clk = some (!t.ph.clockLow) := by
  cases step_kind hst with
  | reset _ => simp at hi
  | accept w hw ha =>
    have hf := ha.frame
    rw [hf.clk, ha.clockLow, h.clock (hf.init ▸ hi), hw.1]
    rfl
  | event _ he =>
    cases he with
    | bWHi hp v c =>
      have hclk : s.clk = some true := by simpa [hp, Phase.clockLow] using h.clock hi
      rw [endBit_ph, endBit_clk]
      split <;> simpa [Phase.clockLow] using hclk
    | iDir hp =>
      obtain ⟨-, hclk, -⟩ := h.idleDir hp
      simp [hclk, Phase.clockLow]
    | bClkLo => rfl
    | bClkHi => rfl
    | iClk => rfl
    | _ hp => simpa [hp, Phase.clockLow] using h.clock hi
  | pass _ _ => exact h.clock hi

theorem step_keeps_low_settled {s t : State} (h : RegInv s) (hst : step s = .next t)
    (hlow : t.stb = some false) : t.init = true ∧ t.settle = Config.hardware.tInit := by
  have hdelay : ∀ n, s.init = true ∧ s.settle = Config.hardware.tInit →
      s.init = true ∧ min (s.settle + n) Config.hardware.tInit = Config.hardware.tInit :=
    fun n ⟨hi, hs⟩ => ⟨hi, by omega⟩
  cases step_kind hst with
  | reset _ => simp at hlow
  | accept w _ ha =>
    have hf := ha.frame
    rw [hf.init, hf.settle]
    exact h.low_settled (hf.stb ▸ hlow)
  | event _ he =>
    cases he with
    | bWLo => exact hdelay _ (h.low_settled hlow)
    | bWHi => exact hdelay _ (h.low_settled hlow)
    | wDly => exact hdelay _ (h.low_settled hlow)
    | fOpen hp => exact h.opening hp
    | fClose => simp at hlow
    | iStb => simp at hlow
    | iDir hp =>
      obtain ⟨hstb, -, -⟩ := h.idleDir hp
      simp [hstb] at hlow
    | _ => exact h.low_settled hlow
  | pass _ _ => exact h.low_settled hlow

/-! ## What holds in each phase -/

/-- During a SEND, `INIT` is 1, `SR` holds a value and `CNT` is below 8 (10_state.md R25, 60_exceptions.md R171,
R172). -/
def sendFacts (s : State) : Prop :=
  s.init = true ∧ s.sr.isSome = true ∧ ∃ c, s.cnt = some c ∧ c.toNat < 8

/-- The fields of `RegInv` that speak of single phases, phase by phase. -/
def phaseFacts (s : State) : Prop :=
  match s.ph with
  | .bClkLo => sendFacts s
  | .bData => sendFacts s
  | .bWLo => sendFacts s
  | .bClkHi => sendFacts s
  | .bWHi => sendFacts s
  | .fOpen => s.init = true ∧ s.settle = Config.hardware.tInit
  | .fClose => s.init = true
  | .iClk => s.stb = some true
  | .iDio => s.stb = some true ∧ s.clk = some true
  | .iDir => s.stb = some true ∧ s.clk = some true ∧ s.dio = some true
  | .wDly => s.cmdl.isSome = true
  | _ => True

theorem phaseFacts_inSend {s : State} (h : phaseFacts s) (hp : s.ph.inSend = true) : sendFacts s := by
  unfold phaseFacts at h
  cases he : s.ph <;> simp_all [Phase.inSend]

/-- What acceptance has checked and latched holds in the first phase of the operation (60_exceptions.md R174). -/
theorem accept_phaseFacts {s t : State} {w : CmdWord} (h : RegInv s) (ha : AcceptStep s w t) :
    phaseFacts t := by
  cases ha with
  | fault => trivial
  | send v _ hi => exact ⟨hi, rfl, 0#4, rfl, by decide⟩
  | openFrame hi hs => exact ⟨hi, Nat.le_antisymm h.settle_le hs⟩
  | closeFrame hi => exact hi
  | idle => trivial
  | wait => rfl

/-- An event leaves what the next phase of the operation needs (10_state.md R26). -/
theorem event_phaseFacts {s t : State} (h : RegInv s) (he : EventStep s t) : phaseFacts t := by
  cases he with
  | bClkLo hp => exact h.sending (by simp [hp, Phase.inSend])
  | bData hp => exact h.sending (by simp [hp, Phase.inSend])
  | bWLo hp => exact h.sending (by simp [hp, Phase.inSend])
  | bClkHi hp => exact h.sending (by simp [hp, Phase.inSend])
  | bWHi hp v c =>
    obtain ⟨hi, -, -⟩ := h.sending (by simp [hp, Phase.inSend])
    unfold phaseFacts
    rw [endBit_ph, phase_after_bit]
    by_cases hc : (c + 1#4).toNat < 8
    · rw [if_pos hc]
      exact ⟨hi, rfl, _, rfl, hc⟩
    · rw [if_neg hc]
      trivial
  | fOpen => trivial
  | fClose => trivial
  | iStb => rfl
  | iClk hp => exact ⟨h.idleClk hp, rfl⟩
  | iDio hp =>
    obtain ⟨hstb, hclk⟩ := h.idleDio hp
    exact ⟨hstb, hclk, rfl⟩
  | iDir => trivial
  | wDly => trivial

theorem step_phaseFacts {s t : State} (h : RegInv s) (hst : step s = .next t) : phaseFacts t := by
  cases step_kind hst with
  | reset _ => trivial
  | accept w _ ha => exact accept_phaseFacts h ha
  | event _ he => exact event_phaseFacts h he
  | pass _ hq => rcases hq with ⟨-, hp⟩ | hp <;> simp [phaseFacts, hp]

/-! ## The invariant -/

/-- Settles O32: no line, no register and no event is there yet. -/
theorem resetMeetsInv : Obligations.ResetMeetsInv where
  settle_le := by decide
  fault_iff := by decide
  fcode_iff := by decide
  driven := by decide
  clock := by decide
  sending := fun hp => absurd hp (by decide)
  opening := by decide
  closing := by decide
  idleClk := by decide
  idleDio := by decide
  idleDir := by decide
  waiting := by decide
  low_settled := by decide
  levels := fun l => by cases l <;> rfl

/-- Settles O33: each field by the lemma of its own, those of single phases by `step_phaseFacts`. -/
theorem stepKeepsInv : Obligations.StepKeepsInv := by
  intro s t h hst
  have hph := step_phaseFacts h hst
  exact {
    settle_le := step_keeps_settle_le h hst
    fault_iff := step_keeps_fault_iff h hst
    fcode_iff := step_keeps_fcode_iff h hst
    driven := step_keeps_driven h hst
    clock := step_keeps_clock h hst
    sending := phaseFacts_inSend hph
    opening := fun hp => by simpa only [phaseFacts, hp] using hph
    closing := fun hp => by simpa only [phaseFacts, hp] using hph
    idleClk := fun hp => by simpa only [phaseFacts, hp] using hph
    idleDio := fun hp => by simpa only [phaseFacts, hp] using hph
    idleDir := fun hp => by simpa only [phaseFacts, hp] using hph
    waiting := fun hp => by simpa only [phaseFacts, hp] using hph
    low_settled := step_keeps_low_settled h hst
    levels := step_keeps_levels h hst }

/-- Every state that a run reaches from a state that meets the invariant meets it. -/
theorem regInv_runSteps {k : Nat} {s t : State} (h : RegInv s) (hrun : runSteps k s = .next t) : RegInv t :=
  runSteps_invariant stepKeepsInv h hrun

/-! ## What the invariant says of the lines -/

/-- Settles O38: `READY` is no phase with CLK low, and a driven line has a level. -/
theorem linesAtRest : Obligations.LinesAtRest := by
  intro s t k h hrun hp hi
  have ht := regInv_runSteps h hrun
  obtain ⟨hstb, hdio, hoe⟩ := ht.driven hi
  have level : ∀ v : Option Level, v.isSome = true → v = some false ∨ v = some true := by decide
  exact ⟨by simpa [hp, Phase.clockLow] using ht.clock hi, level _ hstb, level _ hdio, hoe⟩

/-- An event of an operation after the first IDLE keeps to the clock (10_state.md R39). -/
theorem event_keepsClock {s t : State} {e : Event} (h : RegInv s) (hi : s.init = true)
    (he : EventStep s t) (htr : t.trace = s.trace ++ [e]) : keepsClock s e := by
  have hclk := h.clock hi
  cases he with
  | iDio hp =>
    obtain rfl : Event.write .dio true = e := by simpa using htr
    simp [keepsClock, hp, Phase.inSend]
  | _ hp =>
    simp only [goto_trace, endBit_trace, endIdle_trace, pinWrite_stb_trace, pinWrite_clk_trace,
      pinWrite_dio_trace, pinDirOut_trace, delay_trace, takeSample_trace, List.append_cancel_left_eq,
      List.cons.injEq, and_true] at htr
    subst htr
    simp [keepsClock, hclk, hp, Phase.clockLow]

/-- Settles O39: only the events of operations write a line; acceptance appends nothing, and `Rst` is no
write. -/
theorem writesKeepTheClock : Obligations.WritesKeepTheClock := by
  intro s t e h hi hst htr
  cases step_kind hst with
  | reset _ =>
    obtain rfl : Event.rst = e := by simpa using htr
    trivial
  | accept w _ ha => simp [ha.frame.trace] at htr
  | event _ he => exact event_keepsClock h hi he htr
  | pass _ _ => simp at htr

end Sys2Proof.Laws
end

section
/-! PROOF. Every step keeps the invariant of the receiver's view: what each entry of TRACE does to the frame in
progress (10_state.md R40, 43_wire_protocol.md R131, R132), then the steps by their kind. -/

namespace Sys2Proof.Laws

open Sys2Proof.Machine

/-! ## The receiver knows the lines -/

@[simp] theorem sample_stb (r : Rx) : r.sample.stb = r.stb := by
  simp only [Rx.sample]
  split <;> rfl

@[simp] theorem sample_dio (r : Rx) : r.sample.dio = r.dio := by
  simp only [Rx.sample]
  split <;> rfl

@[simp] theorem sample_inFrame (r : Rx) : r.sample.inFrame = r.inFrame := by
  simp only [Rx.sample]
  split <;> rfl

@[simp] theorem sample_out (r : Rx) : r.sample.out = r.out := by
  simp only [Rx.sample]
  split <;> rfl

/-- An entry of TRACE moves the receiver's lines as it moves the levels of the lines (43_wire_protocol.md
R131). -/
theorem event_lines (r : Rx) (e : Event) :
    (r.event e).stb = traceLevelStep .stb r.stb e ∧ (r.event e).clk = traceLevelStep .clk r.clk e ∧
    (r.event e).dio = traceLevelStep .dio r.dio e := by
  rcases e with ⟨_ | _ | _, _ | _⟩ | _ | _ | _
  case write.stb.false =>
    simp only [Rx.event]
    split <;> simp [traceLevelStep]
  case write.stb.true =>
    simp only [Rx.event]
    split <;> simp [traceLevelStep]
  case write.clk.true =>
    simp only [Rx.event]
    split <;> simp [traceLevelStep]
  all_goals exact ⟨rfl, rfl, rfl⟩

/-- The receiver's lines are at the levels TRACE last wrote (43_wire_protocol.md R131). -/
theorem run_lines (es : List Event) :
    (Rx.start.run es).stb = traceLevel .stb es ∧ (Rx.start.run es).clk = traceLevel .clk es ∧
    (Rx.start.run es).dio = traceLevel .dio es := by
  induction es using List.reverseRecOn with
  | nil => exact ⟨rfl, rfl, rfl⟩
  | append_singleton es e ih =>
    obtain ⟨hstb, hclk, hdio⟩ := ih
    simpa only [run_snoc, traceLevel_snoc, hstb, hclk, hdio] using event_lines (Rx.start.run es) e

/-- In a state that meets the invariant of the registers, the receiver knows the three lines. -/
theorem rx_lines {s : State} (h : RegInv s) :
    (Rx.start.run s.trace).stb = s.stb ∧ (Rx.start.run s.trace).clk = s.clk ∧
    (Rx.start.run s.trace).dio = s.dio := by
  obtain ⟨hstb, hclk, hdio⟩ := run_lines s.trace
  exact ⟨hstb.trans (h.levels .stb), hclk.trans (h.levels .clk), hdio.trans (h.levels .dio)⟩

/-! ## The frame in progress -/

/-- What `FrameInv` says of the frames, with the level of STB and the number of bits over as numbers of their
own: a frame is open exactly while STB is low, its n bits over and its bytes are known, and every closed frame
is whole. -/
structure FrameFacts (r : Rx) (stb : Option Level) (n : Nat) : Prop where
  open_iff : r.inFrame = true ↔ stb = some false
  bits : r.inFrame = true → r.bits.length = n ∧ (∀ b ∈ r.bits, b.isSome = true) ∧
    ∀ b ∈ r.bytes, b.isSome = true
  closed_whole : ∀ f ∈ r.out, f.ending = .closed → f.whole

theorem FrameFacts.of_frameInv {s : State} (h : FrameInv s) :
    FrameFacts (Rx.start.run s.trace) s.stb (bitsInFlight s) := ⟨h.open_iff, h.bits, h.closed_whole⟩

/-- For states that meet the invariant of the registers, the frames are all there is to show. -/
theorem FrameFacts.frameInv {s : State} (hr : RegInv s)
    (h : FrameFacts (Rx.start.run s.trace) s.stb (bitsInFlight s)) : FrameInv s := by
  obtain ⟨hstb, hclk, hdio⟩ := rx_lines hr
  exact ⟨hstb, hclk, hdio, h.open_iff, h.bits, h.closed_whole⟩

section
variable {r : Rx} {stb : Option Level} {n : Nat}

/-- A reset cuts the frame in progress (43_wire_protocol.md R132). -/
theorem FrameFacts.rst (h : FrameFacts r stb n) : FrameFacts (r.event .rst) none 0 where
  open_iff := by simp [Rx.event, Rx.start]
  bits := fun ho => by simp [Rx.event, Rx.start] at ho
  closed_whole := by
    intro f hf hc
    simp only [Rx.event] at hf
    split at hf
    · rcases List.mem_append.1 hf with hf | hf
      · exact h.closed_whole f hf hc
      · obtain rfl := List.mem_singleton.1 hf
        cases hc
    · exact h.closed_whole f hf hc

theorem FrameFacts.clkLow (h : FrameFacts r stb n) : FrameFacts (r.event (.write .clk false)) stb n :=
  ⟨h.open_iff, h.bits, h.closed_whole⟩

theorem FrameFacts.dio (h : FrameFacts r stb n) (v : Level) : FrameFacts (r.event (.write .dio v)) stb n :=
  ⟨h.open_iff, h.bits, h.closed_whole⟩

/-- The bits and bytes after a rising clock edge in a frame (43_wire_protocol.md R131). -/
theorem sample_known (hlen : r.bits.length < 8) (hd : r.dio.isSome = true)
    (hb : ∀ b ∈ r.bits, b.isSome = true) (hB : ∀ b ∈ r.bytes, b.isSome = true) :
    r.sample.bits.length = (r.bits.length + 1) % 8 ∧ (∀ b ∈ r.sample.bits, b.isSome = true) ∧
    ∀ b ∈ r.sample.bytes, b.isSome = true := by
  have hbits : ∀ b ∈ r.bits ++ [r.dio], b.isSome = true := by
    simpa [or_imp, forall_and] using ⟨hb, hd⟩
  simp only [Rx.sample]
  split
  · rename_i h8
    have hbyte := byteOfBits_isSome hbits
    refine ⟨?_, by simp, by simpa [or_imp, forall_and] using ⟨hB, hbyte⟩⟩
    simp only [List.length_append, List.length_singleton] at h8
    simp [h8]
  · rename_i h8
    refine ⟨?_, hbits, hB⟩
    simp only [List.length_append, List.length_singleton] at h8 ⊢
    omega

theorem event_clkRise (hc : r.clk = some false) (ho : r.inFrame = true) :
    r.event (.write .clk true) = { r.sample with clk := some true } := by
  simp [Rx.event, hc, ho]

theorem event_clkHigh_of_no_frame (ho : ¬ r.inFrame = true) :
    r.event (.write .clk true) = { r with clk := some true } := by
  simp [Rx.event, ho]

/-- Outside a frame the clock is not looked at. -/
theorem FrameFacts.clkHigh_of_no_frame (h : FrameFacts r stb n) (ho : ¬ r.inFrame = true) (m : Nat) :
    FrameFacts (r.event (.write .clk true)) stb m := by
  rw [event_clkHigh_of_no_frame ho]
  exact ⟨h.open_iff, fun ho' => absurd ho' ho, h.closed_whole⟩

/-- A rising clock edge in a frame samples one bit more. -/
theorem FrameFacts.clkRise (h : FrameFacts r stb n) (hc : r.clk = some false) (hd : r.dio.isSome = true)
    (hn : n < 8) : FrameFacts (r.event (.write .clk true)) stb ((n + 1) % 8) := by
  by_cases ho : r.inFrame = true
  · obtain ⟨hlen, hb, hB⟩ := h.bits ho
    have hs := sample_known (hlen ▸ hn) hd hb hB
    rw [hlen] at hs
    rw [event_clkRise hc ho]
    exact ⟨by simpa using h.open_iff, fun _ => hs, by simpa using h.closed_whole⟩
  · exact h.clkHigh_of_no_frame ho _

/-- A write of STB low opens a frame, or finds one open with no bit over. -/
theorem FrameFacts.strobeLow (h : FrameFacts r stb 0) (hr : r.stb = stb) (hd : stb.isSome = true) :
    FrameFacts (r.event (.write .stb false)) (some false) 0 := by
  subst hr
  simp only [Rx.event]
  split
  · exact ⟨by simp, fun _ => ⟨rfl, by simp, by simp⟩, h.closed_whole⟩
  · rename_i hne
    have hlow : r.stb = some false := by
      obtain ⟨_ | _, hv⟩ := Option.isSome_iff_exists.1 hd
      · exact hv
      · exact absurd hv hne
    exact ⟨iff_of_true (h.open_iff.2 hlow) rfl, h.bits, h.closed_whole⟩

/-- A write of STB high closes the frame in progress, which is whole because no bit is over. -/
theorem FrameFacts.strobeHigh (h : FrameFacts r stb 0) :
    FrameFacts (r.event (.write .stb true)) (some true) 0 where
  open_iff := by simp [Rx.event]
  bits := fun ho => by simp [Rx.event] at ho
  closed_whole := by
    intro f hf hc
    simp only [Rx.event] at hf
    split at hf
    · rename_i ho
      rcases List.mem_append.1 hf with hf | hf
      · exact h.closed_whole f hf hc
      · obtain rfl := List.mem_singleton.1 hf
        obtain ⟨hlen, -, hB⟩ := h.bits ho.2
        exact ⟨hlen, hB⟩
    · exact h.closed_whole f hf hc

end

/-! ## The steps -/

/-- An acceptance begins with no bit sampled. -/
theorem AcceptStep.no_bits {s t : State} {w : CmdWord} (h : AcceptStep s w t) : bitsInFlight t = 0 := by
  cases h <;> rfl

/-- After the event of B_WHI the bits over are those of the completed bits; the eighth completes the byte. -/
theorem bitsInFlight_endBit (v : Byte) {c : BitVec 4} (s : State) (hc : c.toNat < 8) :
    bitsInFlight (endBit v c s) = (c.toNat + 1) % 8 := by
  have hsucc : (c + 1#4).toNat = c.toNat + 1 := by
    simp only [BitVec.toNat_add, BitVec.toNat_ofNat]
    omega
  simp only [bitsInFlight, endBit_ph, endBit_cnt, phase_after_bit, Option.getD_some, hsucc]
  by_cases h : c.toNat + 1 < 8
  · simp only [if_pos h]
    omega
  · simp only [if_neg h]
    omega

/-- The decoder after one more entry of TRACE, with the bits over given. -/
theorem FrameFacts.snoc {s t : State} {e : Event} {n : Nat} (htr : t.trace = s.trace ++ [e])
    (h : FrameFacts ((Rx.start.run s.trace).event e) t.stb n) (hn : bitsInFlight t = n) :
    FrameFacts (Rx.start.run t.trace) t.stb (bitsInFlight t) := by
  rw [htr, run_snoc, hn]
  exact h

/-- The event of each phase keeps what is said of the frames (10_state.md R26, R40). -/
theorem EventStep.frameFacts {s t : State} (hr : RegInv s)
    (h : FrameFacts (Rx.start.run s.trace) s.stb (bitsInFlight s)) (he : EventStep s t) :
    FrameFacts (Rx.start.run t.trace) t.stb (bitsInFlight t) := by
  obtain ⟨hstb, hclk, hdio⟩ := rx_lines hr
  cases he with
  | bClkLo hp => exact .snoc rfl h.clkLow (by simp [bitsInFlight, hp])
  | bData hp v => exact .snoc rfl (h.dio _) (by simp [bitsInFlight, hp])
  | bWLo hp => exact .snoc rfl h (by simp [bitsInFlight, hp])
  | bClkHi hp =>
    obtain ⟨hi, -, c, hc, hlt⟩ := hr.sending (by simp [hp, Phase.inSend])
    obtain ⟨-, hd, -⟩ := hr.driven hi
    have hn : bitsInFlight s = c.toNat := by simp [bitsInFlight, hp, hc]
    have hlow : (Rx.start.run s.trace).clk = some false := by
      rw [hclk, hr.clock hi, hp]
      rfl
    rw [hn] at h
    exact .snoc rfl (h.clkRise hlow (hdio ▸ hd) hlt) (by simp [bitsInFlight, hc])
  | bWHi hp v c _ hc =>
    obtain ⟨-, -, c', hc', hlt⟩ := hr.sending (by simp [hp, Phase.inSend])
    obtain rfl : c = c' := Option.some.inj (hc.symm.trans hc')
    exact .snoc rfl h (by rw [bitsInFlight_endBit _ _ hlt]; simp [bitsInFlight, hp, hc])
  | fOpen hp =>
    obtain ⟨hi, -⟩ := hr.opening hp
    obtain ⟨hd, -, -⟩ := hr.driven hi
    simp only [bitsInFlight, hp] at h
    exact .snoc rfl (h.strobeLow hstb hd) rfl
  | fClose hp =>
    simp only [bitsInFlight, hp] at h
    exact .snoc rfl h.strobeHigh rfl
  | iStb hp =>
    simp only [bitsInFlight, hp] at h
    exact .snoc rfl h.strobeHigh rfl
  | iClk hp =>
    have ho : ¬ (Rx.start.run s.trace).inFrame = true := by simp [h.open_iff, hr.idleClk hp]
    exact .snoc rfl (h.clkHigh_of_no_frame ho _) rfl
  | iDio hp => exact .snoc rfl (h.dio _) (by simp [bitsInFlight, hp])
  | iDir hp => exact .snoc rfl h (by simp [bitsInFlight, hp])
  | wDly hp w => exact .snoc rfl h (by simp [bitsInFlight, hp])

/-- Settles O35: the lines are those of the registers, and each kind of step keeps what is said of the
frames. -/
theorem stepKeepsFrameInv : Obligations.StepKeepsFrameInv := by
  intro s t hr h hst
  have hf := FrameFacts.of_frameInv h
  refine FrameFacts.frameInv (stepKeepsInv s t hr hst) ?_
  cases step_kind hst with
  | reset _ => exact .snoc rfl hf.rst rfl
  | accept w hw ha =>
    have hn : bitsInFlight s = 0 := by simp [bitsInFlight, hw.1]
    rw [ha.frame.trace, ha.frame.stb, ha.no_bits, ← hn]
    exact hf
  | event _ he => exact he.frameFacts hr hf
  | pass _ _ => exact hf

end Sys2Proof.Laws
end

section
/-! PROOF. A step runs the instruction of the presented word (10_state.md R27), and what STATUS shows
(10_state.md R32). -/

namespace Sys2Proof.Laws

open Sys2Proof.Machine

/-- Settles O7: the step that takes the word is its acceptance, which goes by `Decode`. -/
theorem stepRunsTheDecodedInstruction : Obligations.StepRunsTheDecodedInstruction := by
  intro s w i hw hd
  rw [step_presents hw, acceptWord_hardware, hd]

/-- Settles O8: the command word decodes to the operation, which the instruction is executed as. -/
theorem stepRunsTheIssuedInstruction : Obligations.StepRunsTheIssuedInstruction := by
  intro s i hi hw
  rw [exec_operation hi]
  exact stepRunsTheDecodedInstruction s _ _ hw (decodeCommand_command i)

/-! ## A word of the opcode table, placed (log 20) -/

/-- A byte with the fixed bits of ADDR is the byte of its address (43_wire_protocol.md R142). -/
theorem addrByte_of_fields : ∀ b : Byte, b.extractLsb' 4 4 = 0b1100#4 →
    addrByte (b.extractLsb' 0 4).toNat = b := by decide

/-- A byte with the fixed bits of DISPCTL is the byte of its brightness (43_wire_protocol.md R143). -/
theorem dispCtlByte_of_fields : ∀ b : Byte, b.extractLsb' 3 5 = 0b10001#5 →
    dispCtlByte (b.extractLsb' 0 3).toNat = b := by decide

/-- A payload byte with a mnemonic is carried by the command word of that mnemonic (30_encoding.md R79). -/
theorem decodePayload_command {b : Byte} {i : Instr} (h : decodePayload b = .ok i) :
    i.wellFormed = true ∧ i.command = mkCommand opSend b := by
  unfold decodePayload at h
  split at h
  · rename_i hb
    cases h
    exact ⟨rfl, by rw [hb]; rfl⟩
  split at h
  · rename_i hb
    cases h
    exact ⟨decide_eq_true (BitVec.isLt _), congrArg (mkCommand opSend) (addrByte_of_fields b hb)⟩
  split at h
  · rename_i hb
    cases h
    exact ⟨decide_eq_true (BitVec.isLt _), congrArg (mkCommand opSend) (dispCtlByte_of_fields b hb)⟩
  · cases h

/-- A command word that decodes is the command word of its instruction (30_encoding.md R72). -/
theorem decodeCommand_wellFormed {w : CmdWord} {i : Instr} (h : decodeCommand w = .ok i) :
    i.wellFormed = true ∧ i.command = w := by
  rcases decodeCommand_cases h with ⟨hw, rfl⟩ | ⟨hw, rfl⟩ | ⟨hw, rfl⟩ | ⟨hw, rfl⟩ | ⟨hw, rfl⟩ <;>
    exact ⟨rfl, hw.symm⟩

/-- A word of the opcode table that decodes is placed as the command word of its instruction. -/
theorem decodeTableWord_command {nbits w : Nat} {i : Instr} (h : decodeTableWord nbits w = some i) :
    i.wellFormed = true ∧ tableCommand nbits w = i.command := by
  unfold decodeTableWord tableWord at h
  unfold tableCommand
  split at h
  · cases h
  rename_i t ht
  split at h
  · rename_i j hj
    cases h
    split at ht <;> rename_i hn <;> split at ht <;> cases ht
    · obtain ⟨hi, hc⟩ := decodePayload_command hj
      exact ⟨hi, by rw [if_pos hn, hc]; rfl⟩
    · obtain ⟨hi, hc⟩ := decodeCommand_wellFormed hj
      exact ⟨hi, by rw [if_neg hn, hc]; rfl⟩
  · cases h

/-- A placed word is presented. -/
theorem presents_present (w : CmdWord) (s : State) : presents (present w s) w := by
  refine ⟨rfl, rfl, ?_⟩
  cases hr : s.rst <;> simp [present, rstPort, hr]

/-- Taking a placed word gives the state it was placed in, ready and with its sample taken. -/
theorem takeWord_present (w : CmdWord) (s : State) :
    takeWord (present w s) = { s with ph := .ready, rst := s.rst.tail } := by
  cases hr : s.rst <;> simp [present, takeWord, hr]

/-- Settles O9: the placed word is the command word of the instruction, and it is presented. -/
theorem placedWordIsRunNext : Obligations.PlacedWordIsRunNext := by
  intro s nbits w i h
  obtain ⟨hi, hc⟩ := decodeTableWord_command h
  rw [State.withFetchWord, hc, ← takeWord_present i.command s]
  exact stepRunsTheIssuedInstruction _ i hi (presents_present _ _)

/-! ## STATUS -/

/-- The bits of `STATUS`, fault code first (10_state.md R32). -/
theorem status_bits : ∀ (f : BitVec 2) (a b c : Bool),
    (f ++ BitVec.ofBool a ++ BitVec.ofBool b ++ BitVec.ofBool c).getLsbD 0 = c ∧
    (f ++ BitVec.ofBool a ++ BitVec.ofBool b ++ BitVec.ofBool c).getLsbD 1 = b ∧
    (f ++ BitVec.ofBool a ++ BitVec.ofBool b ++ BitVec.ofBool c).getLsbD 2 = a ∧
    (f ++ BitVec.ofBool a ++ BitVec.ofBool b ++ BitVec.ofBool c).extractLsb' 3 2 = f := by decide

/-- Settles O23: `STATUS` puts the four registers side by side. -/
theorem statusShowsTheState : Obligations.StatusShowsTheState :=
  ⟨⟨rfl, rfl, rfl, rfl⟩, fun s => status_bits s.fcode.bits s.fault s.init (rdy s)⟩

end Sys2Proof.Laws
end

section
/-! PROOF. The 16-bit mask on the wire, and a SEND as the receiver reads it, bit by bit (20_memory.md R52 to R54,
43_wire_protocol.md R131). -/

namespace Sys2Proof.Laws

open Sys2Proof.Machine

/-! ## Masks -/

/-- The bytes of a mask by division (20_memory.md R53). -/
theorem maskLow_eq (m : Mask) : maskLow m = BitVec.ofNat 8 (m.toNat % 256) :=
  BitVec.eq_of_toNat_eq (by simp [maskLow])

theorem maskHigh_eq (m : Mask) : maskHigh m = BitVec.ofNat 8 (m.toNat / 256) :=
  BitVec.eq_of_toNat_eq (by simp [maskHigh, Nat.shiftRight_eq_div_pow])

/-- The bytes of a mask give it back (20_memory.md R54). -/
theorem maskOfBytes_bytes (m : Mask) : maskOfBytes (maskLow m) (maskHigh m) = m := by
  change (m.extractLsb' 8 8 ++ m.extractLsb' 0 8 : BitVec 16) = m
  ext i hi
  simp only [BitVec.getElem_append, BitVec.getElem_extractLsb']
  split <;> rename_i h
  · simp [BitVec.getLsbD_eq_getElem hi]
  · have hsum : 8 + (i - 8) = i := by omega
    simp [hsum, BitVec.getLsbD_eq_getElem hi]

/-- Settles O50: each byte by division, and the two side by side. -/
theorem maskGoesLowByteFirst : Obligations.MaskGoesLowByteFirst := by
  intro m
  exact ⟨by rw [maskBytes, maskLow_eq, maskHigh_eq], maskOfBytes_bytes m⟩

/-! ## The bits of a SEND at the receiver -/

/-- The five events of one bit of a SEND (40_serializer.md R101). -/
def bitEvents (p : Params) (b : Level) : List Event :=
  [.write .clk false, .write .dio b, .delay p.tBit, .write .clk true, .delay p.tBit]

/-- The first n bits of a byte, the lowest first (40_serializer.md R104). -/
def firstBits (v : Byte) (n : Nat) : List Level := (List.range n).map v.getLsbD

theorem firstBits_succ (v : Byte) (n : Nat) : firstBits v (n + 1) = firstBits v n ++ [v.getLsbD n] := by
  simp [firstBits, List.range_succ]

@[simp] theorem firstBits_length (v : Byte) (n : Nat) : (firstBits v n).length = n := by simp [firstBits]

/-- The events of a SEND are those of its eight bits (40_serializer.md R101). -/
theorem sendEvents_eq (p : Params) (v : Byte) : sendEvents p v = (firstBits v 8).flatMap (bitEvents p) := rfl

/-- In a frame, the events of one bit sample it, once (43_wire_protocol.md R131). -/
theorem run_bitEvents {r : Rx} (p : Params) (b : Level) (ho : r.inFrame = true) :
    r.run (bitEvents p b) = { ({ r with dio := some b } : Rx).sample with clk := some true } := by
  simp only [bitEvents, run_cons, run_nil]
  simp only [Rx.event, ho, and_self, if_true, Rx.sample]
  split <;> rfl

/-- Fewer than eight bits stay over, in the order sent (43_wire_protocol.md R131). -/
theorem run_bits (p : Params) (bs : List Level) {r : Rx} (ho : r.inFrame = true) (hc : r.clk = some true)
    (hlen : r.bits.length + bs.length < 8) :
    ∃ d, r.run (bs.flatMap (bitEvents p)) = { r with dio := d, bits := r.bits ++ bs.map some } := by
  induction bs generalizing r with
  | nil => exact ⟨r.dio, by simp⟩
  | cons b bs ih =>
    rw [List.length_cons] at hlen
    have hone : r.run (bitEvents p b) = { r with dio := some b, bits := r.bits ++ [some b] } := by
      rw [run_bitEvents p b ho]
      simp [Rx.sample, hc, show r.bits.length ≠ 7 by omega]
    obtain ⟨d, hd⟩ := ih (r := { r with dio := some b, bits := r.bits ++ [some b] }) ho hc
      (by simp only [List.length_append, List.length_singleton]; omega)
    exact ⟨d, by rw [List.flatMap_cons, run_append, hone, hd]; simp⟩

/-- The eighth bit completes the byte (43_wire_protocol.md R131). -/
theorem run_lastBit (p : Params) (b : Level) {r : Rx} (ho : r.inFrame = true) (hc : r.clk = some true)
    (hlen : r.bits.length = 7) :
    r.run (bitEvents p b) =
      { r with dio := some b, bits := [], bytes := r.bytes ++ [byteOfBits (r.bits ++ [some b])] } := by
  rw [run_bitEvents p b ho]
  simp [Rx.sample, hc, hlen]

/-- Settles O43: seven bits stay over, and the eighth makes the byte of them. -/
theorem sentByteIsReassembled : Obligations.SentByteIsReassembled := by
  intro r v ho hc hb
  obtain ⟨d, hseven⟩ := run_bits Config.hardware (firstBits v 7) ho hc (by simp [hb])
  have hbyte : byteOfBits ((firstBits v 7).map some ++ [some (v.getLsbD 7)]) = some v := byteOfBits_bits v
  rw [sendEvents_eq, firstBits_succ, List.flatMap_append, List.flatMap_singleton, run_append, hseven, hb,
    List.nil_append, run_lastBit (r := { r with dio := d, bits := (firstBits v 7).map some }) _ _ ho hc (by simp),
    hbyte, ← hb]

end Sys2Proof.Laws
end

section
/-! PROOF. The event of a phase goes on, and leaves the fault registers as they are (20_memory.md R66). -/

namespace Sys2Proof.Laws

open Sys2Proof.Machine

/-- In a state that meets the invariant, every register that a phase reads holds a value (10_state.md R26,
60_exceptions.md R171). -/
theorem perform_next {s : State} (p : Params) (h : RegInv s) : ∃ t, perform p s = .next t := by
  have hsend : s.ph.inSend = true → (∃ v, s.sr = some v) ∧ ∃ c, s.cnt = some c := fun hp => by
    obtain ⟨-, hsr, c, hc, -⟩ := h.sending hp
    exact ⟨Option.isSome_iff_exists.1 hsr, c, hc⟩
  unfold perform
  cases hp : s.ph with
  | bData =>
    obtain ⟨⟨v, hv⟩, -⟩ := hsend (by simp [hp, Phase.inSend])
    simp [phaseData, hv]
  | bWHi =>
    obtain ⟨⟨v, hv⟩, c, hc⟩ := hsend (by simp [hp, Phase.inSend])
    simp [phaseWHi, hv, hc]
  | wDly =>
    obtain ⟨w, hw⟩ := Option.isSome_iff_exists.1 (h.waiting hp)
    simp [phaseWait, hw]
  | _ => exact ⟨_, rfl⟩

/-- An operation goes on (20_memory.md R66): the samples of `RST` still to come do not matter to its event. -/
theorem step_busy_next {s : State} (h : RegInv s) (hb : s.ph.busy = true) (hr : rstPort s = false) :
    ∃ t, step s = .next t := by
  obtain ⟨t, ht⟩ := perform_next Config.hardware h
  rw [step_busy hb hr, takeSample, perform_samples, ht]
  exact ⟨_, rfl⟩

/-- With no reset, the step of a phase of an operation is an event. -/
theorem eventStep_of_busy {s t : State} (h : step s = .next t) (hb : s.ph.busy = true)
    (hr : rstPort s = false) : EventStep s t := by
  cases step_kind h with
  | reset hr' => simp [hr] at hr'
  | accept w hw _ => simp [presents_not_busy hw] at hb
  | event _ he => exact he
  | pass _ hq => rcases hq with ⟨-, hp⟩ | hp <;> simp [hp, Phase.busy] at hb

/-- What an event leaves of the fault registers: all of it (20_memory.md R66). -/
theorem EventStep.keeps_fault {s t : State} (h : EventStep s t) :
    t.fault = s.fault ∧ t.fcode = s.fcode ∧ t.fcmd = s.fcmd ∧ t.ph ≠ .faulted := by
  cases h with
  | bWHi _ v c => exact ⟨rfl, rfl, rfl, by rw [endBit_ph]; split <;> decide⟩
  | _ => exact ⟨rfl, rfl, rfl, by simp⟩

/-- Settles O21: the step of a phase is an event, which leaves the fault registers; and of the kinds of a step
only an acceptance sets `FAULT`. -/
theorem eventsNeverFault : Obligations.EventsNeverFault := by
  refine ⟨fun s h hb hr => ?_, fun s t hst hs ht => ?_⟩
  · obtain ⟨t, ht⟩ := step_busy_next h hb hr
    exact ⟨t, ht, (eventStep_of_busy ht hb hr).keeps_fault⟩
  · cases step_kind hst with
    | reset _ => simp at ht
    | accept w hw _ => exact ⟨w, hw⟩
    | event _ he => simp [he.keeps_fault.1, hs] at ht
    | pass _ _ => simp [hs] at ht

end Sys2Proof.Laws
end

section
/-! PROOF. A program's run: each operation from its acceptance to its last event, then the instructions one after
another (20_memory.md R61; 70_reset_and_hazards.md R195, R197, R208). -/

namespace Sys2Proof.Laws

open Sys2Proof.Machine

/-! ## Quiet steps -/

/-- `RST` is 0 at fewer steps. -/
theorem quiet_mono {j k : Nat} {s : State} (hjk : j ≤ k) (hq : quiet k s) : quiet j s :=
  fun b hb => hq b (List.take_subset_take_left _ hjk hb)

/-- After j of the steps, `RST` is 0 at the others. -/
theorem quiet_later {j k : Nat} {s t : State} (hq : quiet (j + k) s) (ht : t.rst = s.rst.drop j) : quiet k t := by
  intro b hb
  rw [ht] at hb
  refine hq b ?_
  rw [List.take_add]
  exact List.mem_append_right _ hb

theorem rstPort_of_quiet {k : Nat} {s : State} (hq : quiet (k + 1) s) : rstPort s = false := by
  unfold rstPort
  cases hr : s.rst with
  | nil => rfl
  | cons b r => exact hq b (by simp [hr])

/-- A run after one step. -/
theorem runSteps_step {s t : State} (h : step s = .next t) (k : Nat) : runSteps (1 + k) s = runSteps k t := by
  rw [Nat.add_comm, runSteps, h]

/-! ## The events of an operation, from its first phase on -/

/-- The state after n + 1 bits of SEND v (10_state.md R24, R25, R26). -/
def afterBits (v : Byte) (n : Nat) (s : State) : State :=
  { s with
    clk := some true
    dio := some (v.getLsbD n)
    sr := some (v >>> (n + 1))
    cnt := some (BitVec.ofNat 4 (n + 1))
    ph := if 8 ≤ n + 1 then .ready else .bClkLo
    settle := min (s.settle + 2 * (n + 1) * Config.hardware.tBit) Config.hardware.tInit
    trace := s.trace ++ (firstBits v (n + 1)).flatMap (bitEvents Config.hardware)
    rst := s.rst.drop (5 * (n + 1)) }

/-- Bit by bit, a SEND comes to the state after its bits (40_serializer.md R100). -/
theorem runSteps_bits {v : Byte} {s : State} (hp : s.ph = .bClkLo) (hs : s.sr = some v) (hc : s.cnt = some 0#4)
    (n : Nat) (hn : n < 8) (hq : quiet (5 * (n + 1)) s) : runSteps (5 * (n + 1)) s = .next (afterBits v n s) := by
  induction n with
  | zero => exact runSteps_bit hp hs hc hq
  | succ n ih =>
    have hq' : quiet (5 * (n + 1) + 5) s := hq
    have hph : (afterBits v n s).ph = .bClkLo := if_neg (by omega)
    have hmod : (n + 1 + 1) % 16 = n + 1 + 1 := Nat.mod_eq_of_lt (by omega)
    rw [show 5 * (n + 1 + 1) = 5 * (n + 1) + 5 by omega,
      runSteps_trans (ih (by omega) (quiet_mono (by omega) hq')), runSteps_bit hph rfl rfl (quiet_later hq' rfl)]
    simp [afterBits, firstBits_succ _ (n + 1), bitEvents, BitVec.shiftRight_add, ← BitVec.ofNat_add, hmod,
      Config.hardware]
    omega

/-- The 40 steps of a SEND (40_serializer.md R101, R102). -/
theorem runSteps_send {v : Byte} {s : State} (hp : s.ph = .bClkLo) (hs : s.sr = some v) (hc : s.cnt = some 0#4)
    (hq : quiet 40 s) :
    runSteps 40 s = .next { s with
      clk := some true
      dio := some (v.getLsbD 7)
      sr := some 0#8
      cnt := some 8#4
      ph := .ready
      settle := min (s.settle + 16 * Config.hardware.tBit) Config.hardware.tInit
      trace := s.trace ++ sendEvents Config.hardware v
      rst := s.rst.drop 40 } := by
  have hsr : v >>> 8 = 0#8 := BitVec.ushiftRight_eq_zero (Nat.le_refl 8)
  rw [← hsr]
  exact runSteps_bits hp hs hc 7 (by omega) hq

theorem runSteps_open {s : State} (hp : s.ph = .fOpen) (hq : quiet 1 s) :
    runSteps 1 s = .next { s with
      stb := some false, ph := .ready, trace := s.trace ++ [.write .stb false], rst := s.rst.drop 1 } := by
  cases s
  cases hp
  exact (runSteps_quiet hq rfl).2

theorem runSteps_close {s : State} (hp : s.ph = .fClose) (hq : quiet 1 s) :
    runSteps 1 s = .next { s with
      stb := some true, ph := .ready, trace := s.trace ++ [.write .stb true], rst := s.rst.drop 1 } := by
  cases s
  cases hp
  exact (runSteps_quiet hq rfl).2

theorem runSteps_idle {s : State} (hp : s.ph = .iStb) (hq : quiet 4 s) :
    runSteps 4 s = .next { s with
      stb := some true
      clk := some true
      dio := some true
      dioOe := some true
      init := true
      settle := 0
      ph := .ready
      trace := s.trace ++ idleEvents
      rst := s.rst.drop 4 } := by
  cases s
  cases hp
  refine (runSteps_quiet hq rfl).2.trans ?_
  simp [endIdle, pinDirOut, pinWrite, State.setLine, State.emit, State.goto, idleEvents]

theorem runSteps_wait {n : Byte} {s : State} (hp : s.ph = .wDly) (hc : s.cmdl = some (mkCommand opWait n))
    (hq : quiet 1 s) :
    runSteps 1 s = .next { s with
      settle := min (s.settle + n.toNat) Config.hardware.tInit
      ph := .ready
      trace := s.trace ++ [.delay n.toNat]
      rst := s.rst.drop 1 } := by
  have hn : waitOperand (mkCommand opWait n) = n.toNat := by rw [waitOperand, immField_mkCommand]
  cases s
  cases hp
  cases hc
  rw [← hn]
  exact (runSteps_quiet hq rfl).2

/-! ## One instruction -/

/-- The steps of a program: one for each instruction and one for each event (20_memory.md R61). -/
def programSteps (is : List Instr) : Nat := is.length + (is.flatMap (instrEvents Config.hardware)).length

/-- From `READY` in s, the instructions `is` run to `READY` in t: each is taken from the client and performs its
events, no fault is taken, and what t meets of boot requirements is what s meets after `is`. -/
structure Performs (s : State) (is : List Instr) (t : State) : Prop where
  run : runSteps (programSteps is) s = .next t
  ph : t.ph = .ready
  prog : s.prog = is.map Instr.command ++ t.prog
  fault : t.fault = s.fault
  trace : t.trace = s.trace ++ is.flatMap (instrEvents Config.hardware)
  rst : t.rst = s.rst.drop (programSteps is)
  boot : ∀ js, faultFree Config.hardware s.init s.settle (is ++ js) = faultFree Config.hardware t.init t.settle js

/-- The next step accepts the instruction with a fault: its boot requirements are not met (60_exceptions.md R172,
R173). -/
structure FaultsAt (s : State) (i : Instr) (t : State) : Prop where
  accept : step s = .next t
  ph : t.ph = .faulted
  fault : t.fault = true
  boot : ∀ js, faultFree Config.hardware s.init s.settle (i :: js) = false

theorem programSteps_singleton (i : Instr) :
    programSteps [i] = 1 + (instrEvents Config.hardware i).length := by simp [programSteps]

theorem programSteps_append (is js : List Instr) :
    programSteps (is ++ js) = programSteps is + programSteps js := by
  simp only [programSteps, List.flatMap_append, List.length_append]
  omega

section
variable {s : State} {i : Instr} (hw : presents s i.command)
include hw

/-- The step that takes an instruction is the acceptance of the operation it is (30_encoding.md R79). -/
theorem step_operation : step s = exec i.operation (takeWord s) :=
  stepRunsTheDecodedInstruction s _ _ hw (decodeCommand_command i)

/-- An instruction performs its events es when its acceptance leads to u, and the run of n steps from there to
`READY` appends them. -/
theorem Performs.single {u t : State} {n : Nat} {es : List Event}
    (hev : instrEvents Config.hardware i = es) (hn : es.length = n)
    (hst : step s = .next u) (hrun : runSteps n u = .next t) (hph : t.ph = .ready)
    (hprog : t.prog = s.prog.tail) (hfault : t.fault = s.fault) (htrace : t.trace = s.trace ++ es)
    (hrst : t.rst = s.rst.tail.drop n)
    (hboot : ∀ js, faultFree Config.hardware s.init s.settle (i :: js) =
      faultFree Config.hardware t.init t.settle js) : Performs s [i] t where
  run := by rw [programSteps_singleton, hev, hn, runSteps_step hst, hrun]
  ph := hph
  prog := by
    rw [hprog]
    exact presents_prog hw
  fault := hfault
  trace := by rw [htrace, List.flatMap_singleton, hev]
  rst := by rw [hrst, programSteps_singleton, hev, hn, ← List.drop_one, List.drop_drop]
  boot := hboot

/-- An operation that needs `INIT` faults without it (60_exceptions.md R172). -/
theorem faultsAt_noInit (hop : needsInit i.operation = true) (hi : s.init = false) : ∃ t, FaultsAt s i t := by
  have hst := step_operation hw
  cases ho : i.operation with
  | send v =>
    rw [ho] at hst
    exact ⟨_, hst.trans (acceptSend_noInit (s := takeWord s) hi v), rfl, rfl,
      fun js => by simp [faultFree, ho, hi]⟩
  | openFrame =>
    rw [ho] at hst
    exact ⟨_, hst.trans (acceptOpen_noInit hi), rfl, rfl, fun js => by simp [faultFree, ho, hi]⟩
  | closeFrame =>
    rw [ho] at hst
    exact ⟨_, hst.trans (acceptClose_noInit hi), rfl, rfl, fun js => by simp [faultFree, ho, hi]⟩
  | _ => simp [ho, needsInit] at hop

/-- OPEN faults before the line has settled (60_exceptions.md R173). -/
theorem faultsAt_unsettled (hop : i.operation = .openFrame) (hi : s.init = true)
    (hs : s.settle < Config.hardware.tInit) : ∃ t, FaultsAt s i t := by
  have hst := step_operation hw
  rw [hop] at hst
  exact ⟨_, hst.trans (acceptOpen_unsettled hi hs), rfl, rfl,
    fun js => by simp [faultFree, hop, Nat.not_le_of_lt hs]⟩

section
variable (hq : quiet (instrEvents Config.hardware i).length (takeWord s))
include hq

theorem send_performs {v : Byte} (hop : i.operation = .send v) (hi : s.init = true) : ∃ t, Performs s [i] t := by
  have hev : instrEvents Config.hardware i = sendEvents Config.hardware v := by rw [instrEvents, hop]
  rw [hev, sendEvents_length] at hq
  have hst : step s = .next (startSend v (latch (mkCommand opSend v) (takeWord s))) := by
    rw [step_operation hw, hop]
    exact acceptSend_ok (s := takeWord s) hi v
  have hrun := runSteps_send (v := v) (s := startSend v (latch (mkCommand opSend v) (takeWord s)))
    rfl rfl rfl hq
  exact ⟨_, .single hw hev (sendEvents_length _ v) hst hrun rfl rfl rfl rfl rfl fun js => by simp [faultFree, hop, hi]⟩

theorem open_performs (hop : i.operation = .openFrame) (hi : s.init = true)
    (hs : Config.hardware.tInit ≤ s.settle) : ∃ t, Performs s [i] t := by
  have hev : instrEvents Config.hardware i = [.write .stb false] := by rw [instrEvents, hop]
  rw [hev] at hq
  have hst : step s = .next ((latch (mkCommand opOpen 0#8) (takeWord s)).goto .fOpen) := by
    rw [step_operation hw, hop]
    exact acceptOpen_ok hi hs
  have hrun := runSteps_open (s := (latch (mkCommand opOpen 0#8) (takeWord s)).goto .fOpen) rfl hq
  exact ⟨_, .single hw hev rfl hst hrun rfl rfl rfl rfl rfl fun js => by simp [faultFree, hop, hi, hs]⟩

theorem close_performs (hop : i.operation = .closeFrame) (hi : s.init = true) : ∃ t, Performs s [i] t := by
  have hev : instrEvents Config.hardware i = [.write .stb true] := by rw [instrEvents, hop]
  rw [hev] at hq
  have hst : step s = .next ((latch (mkCommand opClose 0#8) (takeWord s)).goto .fClose) := by
    rw [step_operation hw, hop]
    exact acceptClose_ok hi
  have hrun := runSteps_close (s := (latch (mkCommand opClose 0#8) (takeWord s)).goto .fClose) rfl hq
  exact ⟨_, .single hw hev rfl hst hrun rfl rfl rfl rfl rfl fun js => by simp [faultFree, hop, hi]⟩

theorem idle_performs (hop : i.operation = .idle) : ∃ t, Performs s [i] t := by
  have hev : instrEvents Config.hardware i = idleEvents := by rw [instrEvents, hop]
  rw [hev] at hq
  have hst : step s = .next ((latch (mkCommand opIdle 0#8) (takeWord s)).goto .iStb) := by
    rw [step_operation hw, hop]
    rfl
  have hrun := runSteps_idle (s := (latch (mkCommand opIdle 0#8) (takeWord s)).goto .iStb) rfl hq
  exact ⟨_, .single hw hev rfl hst hrun rfl rfl rfl rfl rfl fun js => by simp [faultFree, hop]⟩

theorem wait_performs {n : Byte} (hop : i.operation = .wait n) : ∃ t, Performs s [i] t := by
  have hev : instrEvents Config.hardware i = [.delay n.toNat] := by rw [instrEvents, hop]
  rw [hev] at hq
  have hst : step s = .next ((latch (mkCommand opWait n) (takeWord s)).goto .wDly) := by
    rw [step_operation hw, hop]
    rfl
  have hrun := runSteps_wait (n := n) (s := (latch (mkCommand opWait n) (takeWord s)).goto .wDly) rfl rfl hq
  exact ⟨_, .single hw hev rfl hst hrun rfl rfl rfl rfl rfl fun js => by simp [faultFree, hop]⟩

end

/-- The instruction the client presents performs its events or faults, as its boot requirements say. -/
theorem performs_or_faults (hq : quiet (programSteps [i]) s) :
    (∃ t, Performs s [i] t) ∨ ∃ t, FaultsAt s i t := by
  have hq' : quiet (instrEvents Config.hardware i).length (takeWord s) := by
    rw [programSteps_singleton] at hq
    exact quiet_later hq (by simp)
  by_cases hno : needsInit i.operation = true ∧ s.init = false
  · exact .inr (faultsAt_noInit hw hno.1 hno.2)
  have hinit : needsInit i.operation = true → s.init = true := by simpa using hno
  rcases decodeCommand_cases (decodeCommand_command i) with
    ⟨-, hop⟩ | ⟨-, hop⟩ | ⟨-, hop⟩ | ⟨-, hop⟩ | ⟨-, hop⟩
  · exact .inl (send_performs hw hq' hop (hinit (congrArg needsInit hop)))
  · have hi := hinit (congrArg needsInit hop)
    rcases Nat.lt_or_ge s.settle Config.hardware.tInit with hs | hs
    · exact .inr (faultsAt_unsettled hw hop hi hs)
    · exact .inl (open_performs hw hq' hop hi hs)
  · exact .inl (close_performs hw hq' hop (hinit (congrArg needsInit hop)))
  · exact .inl (idle_performs hw hq' hop)
  · exact .inl (wait_performs hw hq' hop)

end

/-! ## Programs -/

/-- One program after another. -/
theorem Performs.trans {s t u : State} {is js : List Instr} (h : Performs s is t) (h' : Performs t js u) :
    Performs s (is ++ js) u where
  run := by rw [programSteps_append, runSteps_trans h.run, h'.run]
  ph := h'.ph
  prog := by rw [h.prog, h'.prog, List.map_append, List.append_assoc]
  fault := h'.fault.trans h.fault
  trace := by rw [h'.trace, h.trace, List.flatMap_append, List.append_assoc]
  rst := by rw [h'.rst, h.rst, List.drop_drop, programSteps_append]
  boot := fun ks => by rw [List.append_assoc, h.boot, h'.boot]

/-- A program performs its instructions in order, or faults at the first whose boot requirements are not met;
what the client issues after the program does not matter. -/
theorem program_performs_or_faults (is : List Instr) {s : State} {ws : List CmdWord} (hp : s.ph = .ready)
    (hprog : s.prog = is.map Instr.command ++ ws) (hq : quiet (programSteps is) s) :
    (∃ t, Performs s is t) ∨
    ∃ j t, j ≤ programSteps is ∧ runSteps j s = .next t ∧ t.ph = .faulted ∧ t.fault = true ∧
      faultFree Config.hardware s.init s.settle is = false := by
  induction is generalizing s with
  | nil => exact .inl ⟨s, rfl, hp, rfl, rfl, by simp, rfl, fun _ => rfl⟩
  | cons i is ih =>
    have hsteps : programSteps (i :: is) = programSteps [i] + programSteps is := programSteps_append [i] is
    have hone : programSteps [i] = (instrEvents Config.hardware i).length + 1 := by
      rw [programSteps_singleton, Nat.add_comm]
    rw [hsteps] at hq
    have hqi : quiet (programSteps [i]) s := quiet_mono (Nat.le_add_right _ _) hq
    have hw : presents s i.command := ⟨hp, by simp [hprog], rstPort_of_quiet (hone ▸ hqi)⟩
    rcases performs_or_faults hw hqi with ⟨t, ht⟩ | ⟨t, ht⟩
    · have htprog : t.prog = is.map Instr.command ++ ws := by simpa [hprog] using ht.prog.symm
      rcases ih ht.ph htprog (quiet_later hq ht.rst) with ⟨u, hu⟩ | ⟨j, u, hj, hrun, hph, hf, hboot⟩
      · exact .inl ⟨u, ht.trans hu⟩
      · exact .inr ⟨programSteps [i] + j, u, by omega, by rw [runSteps_trans ht.run, hrun], hph, hf,
          (ht.boot is).trans hboot⟩
    · exact .inr ⟨1, t, by omega, runSteps_step ht.accept 0, ht.ph, ht.fault, ht.boot is⟩

/-- Settles O42: a program performs its instructions or faults, and each outcome says what `faultFree` is. -/
theorem programRunsInOrderOrFaults : Obligations.ProgramRunsInOrderOrFaults := by
  intro s is k hp hk hq _ hprog
  obtain rfl : k = programSteps is := hk
  rcases program_performs_or_faults is (ws := []) hp (by simpa using hprog) hq with
    ⟨t, ht⟩ | ⟨j, t, hj, hrun, hph, hf, hboot⟩
  · have hend : t.prog = [] := by simpa [hprog] using ht.prog
    have hfree : faultFree Config.hardware s.init s.settle is = true := by
      simpa [faultFree] using ht.boot []
    exact ⟨fun _ => ⟨t, ht.run, ⟨hend, ht.ph⟩, ht.fault, ht.trace, ht.rst⟩, fun hn => by simp [hfree] at hn⟩
  · exact ⟨fun hn => by simp [hboot] at hn, fun _ => ⟨j, t, hj, hrun, hph, hf⟩⟩

end Sys2Proof.Laws
end

section
/-! PROOF. Encode and decode are inverse to each other, in both formats (30_encoding.md R72, R76;
43_wire_protocol.md R141 to R143). -/

namespace Sys2Proof.Laws

open Sys2Proof.Machine

/-! ## Payload bytes -/

/-- The fields of the byte of DISPCTL (43_wire_protocol.md R143). -/
theorem dispCtlByte_fields : ∀ b, b < 8 → dispCtlByte b ≠ dataModeByte ∧
    (dispCtlByte b).extractLsb' 4 4 ≠ 0b1100#4 ∧ (dispCtlByte b).extractLsb' 3 5 = 0b10001#5 ∧
    ((dispCtlByte b).extractLsb' 0 3).toNat = b := by decide

theorem decodePayload_dataMode : decodePayload dataModeByte = .ok .dataMode := if_pos rfl

theorem decodePayload_addr {a : Nat} (h : a < 16) : decodePayload (addrByte a) = .ok (.addr a) := by
  obtain ⟨hfixed, haddr, hne⟩ := addrByte_fields a h
  rw [decodePayload, if_neg hne, if_pos hfixed, haddr]

theorem decodePayload_dispCtl {b : Nat} (h : b < 8) : decodePayload (dispCtlByte b) = .ok (.dispCtl b) := by
  obtain ⟨hne, hneAddr, hfixed, hbright⟩ := dispCtlByte_fields b h
  rw [decodePayload, if_neg hne, if_neg hneAddr, if_pos hfixed, hbright]

/-- The instruction of a payload byte is encoded as a payload byte: the two formats do not mix
(30_encoding.md R72). -/
theorem decodePayload_format {b : Byte} {i : Instr} (h : decodePayload b = .ok i) :
    ∃ c, encode i = .p8 c := by
  unfold decodePayload at h
  split at h
  · cases h
    exact ⟨_, rfl⟩
  split at h
  · cases h
    exact ⟨_, rfl⟩
  split at h
  · cases h
    exact ⟨_, rfl⟩
  · cases h

/-! ## Both formats -/

/-- The encoding of the instruction that a payload byte decodes to is that byte: the client's command word
carries it (30_encoding.md R79). -/
theorem encode_of_decodePayload {b : Byte} {i : Instr} (h : decodePayload b = .ok i) : encode i = .p8 b := by
  obtain ⟨c, hc⟩ := decodePayload_format h
  have hcmd : mkCommand opSend c = mkCommand opSend b := by
    rw [← (decodePayload_command h).2, Instr.command, hc]
    rfl
  have hbyte : c = b := by simpa using congrArg immField hcmd
  rw [hc, hbyte]

/-- The encoding of the instruction that a command word decodes to is that word (30_encoding.md R72). -/
theorem encode_of_decodeCommand {w : CmdWord} {i : Instr} (h : decodeCommand w = .ok i) : encode i = .c11 w := by
  rcases decodeCommand_cases h with ⟨hw, rfl⟩ | ⟨hw, rfl⟩ | ⟨hw, rfl⟩ | ⟨hw, rfl⟩ | ⟨hw, rfl⟩ <;>
    exact congrArg TableWord.c11 hw.symm

/-- Settles O1: each constructor by the decoder's equation for its word. -/
theorem encodedInstructionDecodesToItself : Obligations.EncodedInstructionDecodesToItself := by
  intro i hi
  cases i with
  | send v => exact decodeCommand_send v
  | openFrame => exact decodeCommand_open
  | closeFrame => exact decodeCommand_close
  | idle => exact decodeCommand_idle
  | wait n => exact decodeCommand_wait n
  | dataMode => exact decodePayload_dataMode
  | addr a => exact decodePayload_addr (of_decide_eq_true hi)
  | dispCtl b => exact decodePayload_dispCtl (of_decide_eq_true hi)

/-- Settles O2: format by format. -/
theorem decodedWordIsTheEncoding : Obligations.DecodedWordIsTheEncoding := by
  intro t i h
  cases t with
  | c11 w => exact ⟨(decodeCommand_wellFormed h).1, encode_of_decodeCommand h⟩
  | p8 b => exact ⟨(decodePayload_command h).1, encode_of_decodePayload h⟩

/-- Settles O3: a payload byte by its mnemonic's equation, a command word by its operation's. -/
theorem wordsOfTheSpecDecode : Obligations.WordsOfTheSpecDecode :=
  ⟨decodeCommand_send 0xA5#8, decodeCommand_open, decodeCommand_close, decodeCommand_idle,
    decodeCommand_wait 10#8, decodePayload_dataMode, decodePayload_addr (a := 6) (by decide),
    decodePayload_dispCtl (b := 4) (by decide)⟩

end Sys2Proof.Laws
end

section
/-! PROOF. `Decode` by the fields of the word, the illegal words and their number (30_encoding.md R75, R76). -/

namespace Sys2Proof.Laws

open Sys2Proof.Machine

/-! ## The fields, by division -/

/-- The selector by division (30_encoding.md R73). -/
theorem opField_eq_iff (w : CmdWord) (op : BitVec 3) : opField w = op ↔ w.toNat / 256 = op.toNat := by
  rw [← BitVec.toNat_inj, (fields_toNat w).1]

theorem immField_eq (w : CmdWord) : immField w = BitVec.ofNat 8 (w.toNat % 256) :=
  BitVec.eq_of_toNat_eq (by simp [(fields_toNat w).2])

theorem immField_eq_zero_iff (w : CmdWord) : immField w = 0#8 ↔ w.toNat % 256 = 0 := by
  rw [← BitVec.toNat_inj, (fields_toNat w).2]
  rfl

/-- A word is its quotient and its remainder (30_encoding.md R73). -/
theorem eq_mkCommand_of_div {w : CmdWord} {op : BitVec 3} (h : w.toNat / 256 = op.toNat) :
    w = mkCommand op (BitVec.ofNat 8 (w.toNat % 256)) := by
  rw [← immField_eq, ← (opField_eq_iff w op).2 h, mkCommand_fields]

/-! ## The illegal words -/

/-- A reserved selector (30_encoding.md R72). -/
theorem decodeCommand_of_reservedOp {w : CmdWord}
    (h : opField w = 0b101#3 ∨ opField w = 0b110#3 ∨ opField w = 0b111#3) :
    decodeCommand w = .error .reservedOp := by
  rcases h with h | h | h <;> simp [decodeCommand, h, opSend, opOpen, opClose, opIdle, opWait]

/-- OPEN, CLOSE or IDLE with an immediate (30_encoding.md R74). -/
theorem decodeCommand_of_immNotZero {w : CmdWord}
    (h : opField w = 0b001#3 ∨ opField w = 0b010#3 ∨ opField w = 0b011#3) (hi : immField w ≠ 0#8) :
    decodeCommand w = .error .immNotZero := by
  rcases h with h | h | h <;> simp [decodeCommand, h, hi, opSend, opOpen, opClose, opIdle]

/-- Every selector is that of an operation or reserved (30_encoding.md R72). -/
theorem selector_cases : ∀ op : BitVec 3, op = opSend ∨ op = opOpen ∨ op = opClose ∨ op = opIdle ∨
    op = opWait ∨ op = 0b101#3 ∨ op = 0b110#3 ∨ op = 0b111#3 := by decide

/-- What an error of `Decode` says of the word (30_encoding.md R76). -/
theorem decodeCommand_error_cases {w : CmdWord} {e : DecodeError} (h : decodeCommand w = .error e) :
    ((opField w = 0b101#3 ∨ opField w = 0b110#3 ∨ opField w = 0b111#3) ∧ e = .reservedOp) ∨
    ((opField w = 0b001#3 ∨ opField w = 0b010#3 ∨ opField w = 0b011#3) ∧ immField w ≠ 0#8 ∧
      e = .immNotZero) := by
  unfold decodeCommand at h
  simp only at h
  split at h
  · cases h
  rename_i hsend
  split at h
  · rename_i ho
    split at h <;> cases h
    exact .inr ⟨.inl ho, by assumption, rfl⟩
  rename_i hopen
  split at h
  · rename_i ho
    split at h <;> cases h
    exact .inr ⟨.inr (.inl ho), by assumption, rfl⟩
  rename_i hclose
  split at h
  · rename_i ho
    split at h <;> cases h
    exact .inr ⟨.inr (.inr ho), by assumption, rfl⟩
  rename_i hidle
  split at h
  · cases h
  rename_i hwait
  cases h
  exact .inl ⟨by simpa only [hsend, hopen, hclose, hidle, hwait, false_or] using selector_cases (opField w), rfl⟩

theorem reservedOp_iff (w : CmdWord) : decodeCommand w = .error .reservedOp ↔
    opField w = 0b101#3 ∨ opField w = 0b110#3 ∨ opField w = 0b111#3 := by
  refine ⟨fun h => ?_, decodeCommand_of_reservedOp⟩
  rcases decodeCommand_error_cases h with ⟨ho, -⟩ | ⟨-, -, he⟩
  · exact ho
  · cases he

theorem immNotZero_iff (w : CmdWord) : decodeCommand w = .error .immNotZero ↔
    (opField w = 0b001#3 ∨ opField w = 0b010#3 ∨ opField w = 0b011#3) ∧ immField w ≠ 0#8 := by
  refine ⟨fun h => ?_, fun ⟨ho, hi⟩ => decodeCommand_of_immNotZero ho hi⟩
  rcases decodeCommand_error_cases h with ⟨-, he⟩ | ⟨ho, hi, -⟩
  · cases he
  · exact ⟨ho, hi⟩

/-- The reserved words by division. -/
theorem reservedOp_iff_div (w : CmdWord) : decodeCommand w = .error .reservedOp ↔ 5 ≤ w.toNat / 256 := by
  have hlt := w.isLt
  simp only [reservedOp_iff, opField_eq_iff, BitVec.reduceToNat]
  omega

/-- The words with an immediate too many, by division. -/
theorem immNotZero_iff_div (w : CmdWord) : decodeCommand w = .error .immNotZero ↔
    1 ≤ w.toNat / 256 ∧ w.toNat / 256 ≤ 3 ∧ w.toNat % 256 ≠ 0 := by
  simp only [immNotZero_iff, opField_eq_iff, ne_eq, immField_eq_zero_iff, BitVec.reduceToNat]
  omega

/-! ## Their number -/

/-- Counting block by block. -/
theorem countP_range_mul (p : Nat → Bool) (b k : Nat) :
    (List.range (b * k)).countP p =
      ((List.range k).map fun j => (List.range b).countP fun m => p (b * j + m)).sum := by
  induction k with
  | zero => rfl
  | succ k ih =>
    rw [Nat.mul_succ, List.range_add, List.countP_append, ih, List.countP_map, List.range_succ]
    simp [Function.comp_def]

/-- The words of the selector j, in order of their immediate. -/
theorem ofNat_toNat_div_mod {j m : Nat} (hj : j < 8) (hm : m < 256) :
    (BitVec.ofNat 11 (256 * j + m)).toNat / 256 = j ∧ (BitVec.ofNat 11 (256 * j + m)).toNat % 256 = m := by
  rw [BitVec.toNat_ofNat]
  omega

/-- Each reserved selector has 256 words (30_encoding.md R76). -/
theorem countP_reservedOp {j : Nat} (hj : j < 8) :
    ((List.range 256).countP fun m =>
      decide (decodeCommand (BitVec.ofNat 11 (256 * j + m)) = .error .reservedOp)) = if 5 ≤ j then 256 else 0 := by
  have hiff : ∀ m ∈ List.range 256,
      (decodeCommand (BitVec.ofNat 11 (256 * j + m)) = .error .reservedOp ↔ 5 ≤ j) :=
    fun m hm => by rw [reservedOp_iff_div, (ofNat_toNat_div_mod hj (List.mem_range.1 hm)).1]
  split
  · rename_i h5
    exact (List.countP_eq_length.2 fun m hm => decide_eq_true ((hiff m hm).2 h5)).trans List.length_range
  · rename_i h5
    exact List.countP_eq_zero.2 fun m hm => by simpa using fun h => h5 ((hiff m hm).1 h)

/-- OPEN, CLOSE and IDLE have 255 words each with an immediate (30_encoding.md R76). -/
theorem countP_immNotZero {j : Nat} (hj : j < 8) :
    ((List.range 256).countP fun m =>
      decide (decodeCommand (BitVec.ofNat 11 (256 * j + m)) = .error .immNotZero)) =
      if 1 ≤ j ∧ j ≤ 3 then 255 else 0 := by
  have hiff : ∀ m ∈ List.range 256,
      (decodeCommand (BitVec.ofNat 11 (256 * j + m)) = .error .immNotZero ↔ (1 ≤ j ∧ j ≤ 3) ∧ m ≠ 0) :=
    fun m hm => by
      obtain ⟨hdiv, hmod⟩ := ofNat_toNat_div_mod hj (List.mem_range.1 hm)
      rw [immNotZero_iff_div, hdiv, hmod, and_assoc]
  split
  · rename_i hop
    have hnonzero : (List.range 256).countP (fun m => decide (m ≠ 0)) = 255 := by
      rw [List.range_succ_eq_map, List.countP_cons_of_neg (by simp), List.countP_map,
        List.countP_eq_length.2 (by simp), List.length_range]
    rw [← hnonzero]
    exact List.countP_congr fun m hm => by simp [hiff m hm, hop]
  · rename_i hop
    exact List.countP_eq_zero.2 fun m hm => by simpa using fun h => hop ((hiff m hm).1 h).1

/-! ## An illegal word presented -/

/-- The step that takes an illegal word is the entry of `F_ILLEGAL` (60_exceptions.md R175, R177). -/
theorem step_illegal {s : State} {w : CmdWord} {e : DecodeError} (hw : presents s w)
    (hd : decodeCommand w = .error e) : step s = .next (enterFault .illegal w (latch w (takeWord s))) := by
  rw [step_presents hw, acceptWord_hardware, hd]
  rfl

/-- Settles O4: the word is its fields, whose `Decode` is known, or its fields are those of an illegal word. -/
theorem decodeIsTheTableOfOperations : Obligations.DecodeIsTheTableOfOperations := by
  refine ⟨fun w => ?_, fun s w e hw hd => step_illegal hw hd, stepRunsTheDecodedInstruction⟩
  have hdecode : ∀ {op : BitVec 3}, w.toNat / 256 = op.toNat →
      decodeCommand w = decodeCommand (mkCommand op (BitVec.ofNat 8 (w.toNat % 256))) :=
    fun h => congrArg decodeCommand (eq_mkCommand_of_div h)
  refine ⟨fun h => ?_, fun h hi => ?_, fun h hi => ?_, fun h hi => ?_, fun h => ?_, fun h => ?_⟩
  · exact (hdecode (op := opSend) h).trans (decodeCommand_send _)
  · rw [hdecode (op := opOpen) h, hi]
    exact decodeCommand_open
  · rw [hdecode (op := opClose) h, hi]
    exact decodeCommand_close
  · rw [hdecode (op := opIdle) h, hi]
    exact decodeCommand_idle
  · exact (hdecode (op := opWait) h).trans (decodeCommand_wait _)
  · rcases h with h | h
    · exact ⟨_, (reservedOp_iff_div w).2 h⟩
    · exact ⟨_, (immNotZero_iff_div w).2 h⟩

/-- Settles O5: the words are counted selector by selector. -/
theorem illegalWordsAreThoseOfTheSpec : Obligations.IllegalWordsAreThoseOfTheSpec := by
  refine ⟨?_, ?_, reservedOp_iff, immNotZero_iff, fun w e h => ?_, fun s w e hw hd => ?_⟩
  · rw [← List.countP_eq_length_filter, show 2048 = 256 * 8 from rfl, countP_range_mul,
      List.map_congr_left fun j hj => countP_reservedOp (List.mem_range.1 hj)]
    rfl
  · rw [← List.countP_eq_length_filter, show 2048 = 256 * 8 from rfl, countP_range_mul,
      List.map_congr_left fun j hj => countP_immNotZero (List.mem_range.1 hj)]
    rfl
  · rcases decodeCommand_error_cases h with ⟨-, he⟩ | ⟨-, -, he⟩
    · exact .inl he
    · exact .inr he
  · exact ⟨_, step_illegal hw hd, rfl, rfl, rfl, rfl⟩

end Sys2Proof.Laws
end

section
/-! PROOF. The pseudo-instructions are the commands they are shorthand for (30_encoding.md R79, R81;
43_wire_protocol.md R141 to R143). -/

namespace Sys2Proof.Laws

open Sys2Proof.Machine

/-- The word of SEND is its byte: the selector is 0 (30_encoding.md R72, R73). -/
theorem mkCommand_opSend (v : Byte) : mkCommand opSend v = BitVec.ofNat 11 v.toNat := by
  have hv := v.isLt
  refine BitVec.eq_of_toNat_eq ?_
  change (opSend ++ v).toNat = _
  rw [BitVec.toNat_append, BitVec.toNat_ofNat, Nat.mod_eq_of_lt (by omega)]
  simp [opSend]

/-- The command word that carries the byte of ADDR (43_wire_protocol.md R142). -/
theorem mkCommand_addrByte : ∀ a, a < 16 →
    mkCommand opSend (addrByte a) = 0x0C0#11 ||| BitVec.ofNat 11 a := by decide

/-- The command word that carries the byte of DISPCTL, by the clamped brightness (43_wire_protocol.md R143,
R145). -/
theorem mkCommand_dispCtlByte (b : Nat) :
    mkCommand opSend (dispCtlByte b) = 0x088#11 ||| BitVec.ofNat 11 (min b 7) := by
  have hclamped : ∀ m, m < 8 →
      mkCommand opSend (0x80#8 ||| 0x08#8 ||| BitVec.ofNat 8 m) = 0x088#11 ||| BitVec.ofNat 11 m := by decide
  exact hclamped (min b 7) (by omega)

/-- Settles O6: the words byte by byte, and each execution is that of SEND. -/
theorem pseudoInstructionsAreTheirCommands : Obligations.PseudoInstructionsAreTheirCommands := by
  refine ⟨fun bs => ?_, rfl, mkCommand_addrByte, mkCommand_dispCtlByte, fun s => ?_⟩
  · have hsend : Instr.command ∘ Instr.send = fun b => BitVec.ofNat 11 b.toNat := funext mkCommand_opSend
    rw [txn, List.map_cons, List.map_append, List.map_map, hsend]
    rfl
  · exact ⟨execDataMode_eq s, fun a ha => execAddr_eq ha s, fun b => execDispCtl_eq b s⟩

/-- Settles O15: each is the acceptance of SEND, which finds `INIT` set. -/
theorem payloadInstructionsComplete : Obligations.PayloadInstructionsComplete := by
  intro s hi
  refine ⟨acceptSend_ok hi dataModeByte, fun a ha => ?_, fun b => ?_⟩
  · rw [execAddr_eq ha, ← mkCommand_addrByte a ha]
    exact acceptSend_ok hi (addrByte a)
  · rw [← mkCommand_dispCtlByte]
    exact acceptSend_ok hi (dispCtlByte b)

end Sys2Proof.Laws
end

section
/-! PROOF. The assembler reads a numeral as its value (30_encoding.md R78; log 17). -/

namespace Sys2Proof.Laws

open Sys2Proof.Machine

theorem decDigit_digitChar : ∀ d, d < 10 → Asm.decDigit d.digitChar = some d := by decide

theorem hexDigit_digitChar : ∀ d, d < 16 → Asm.hexDigit d.digitChar = some d := by decide

/-- The numeral of n is read as n, in any base all of whose digits are read. -/
theorem digits_toDigits {base : Nat} {digit : Char → Option Nat} (hbase : 1 < base)
    (hdigit : ∀ d, d < base → digit d.digitChar = some d) (n : Nat) :
    Asm.digits base digit (Nat.toDigits base n) 0 = some n := by
  induction n using Nat.strongRecOn with
  | ind n ih =>
    rcases Nat.lt_or_ge n base with hlt | hge
    · simp [Nat.toDigits_of_lt_base hlt, Asm.digits, hdigit n hlt]
    · have hlast := hdigit (n % base) (Nat.mod_lt n (by omega))
      rw [Nat.toDigits_of_base_le hbase hge,
        digits_snoc (ih (n / base) (Nat.div_lt_self (by omega) hbase)) hlast, Nat.div_add_mod']

/-- What is read as decimal digits is a decimal number: it does not begin with `0x`. -/
theorem number_of_decimal {cs : List Char} {n : Nat} (hne : cs ≠ [])
    (h : Asm.digits 10 Asm.decDigit cs 0 = some n) : Asm.number cs = some n := by
  have hzero : Asm.decDigit '0' = some 0 := by decide
  have hx : Asm.decDigit 'x' = none := by decide
  unfold Asm.number
  split
  · exact absurd rfl hne
  · simp [Asm.digits, hzero, hx] at h
  · simp [Asm.digits, hzero, hx] at h
  · exact h

/-- What stands after `0x` is a hex number. -/
theorem number_of_hex {cs : List Char} (hne : cs ≠ []) :
    Asm.number ('0' :: 'x' :: cs) = Asm.digits 16 Asm.hexDigit cs 0 := by
  cases cs with
  | nil => exact absurd rfl hne
  | cons c cs => rfl

/-- Settles O60: an immediate is compared with 256 before it becomes a byte, and a numeral is read as its
value. -/
theorem assemblerNeverWrapsAnImmediate : Obligations.AssemblerNeverWrapsAnImmediate := by
  refine ⟨fun cs n hcs => ?_, fun n => ?_, fun n => ?_, fun c => ?_⟩
  · rw [Asm.imm8, hcs]
    exact ⟨fun h => if_pos h, fun h => if_neg (Nat.not_lt.2 h)⟩
  · exact number_of_decimal Nat.toDigits_ne_nil (digits_toDigits (by decide) decDigit_digitChar n)
  · rw [number_of_hex Nat.toDigits_ne_nil]
    exact digits_toDigits (by decide) hexDigit_digitChar n
  · exact ⟨fun h => if_pos h, fun h => if_neg (Nat.not_lt.2 h)⟩

end Sys2Proof.Laws
end

section
/-! PROOF. The SBT does not read the payload (30_encoding.md R81): two SENDs of different bytes go side by side
through the same phases. -/

namespace Sys2Proof.Laws

open Sys2Proof.Machine

/-! ## The event of a phase, as a step -/

/-- With no reset, the event of a phase is the step. -/
theorem EventStep.step {s t : State} (he : EventStep s t) (hr : rstPort s = false) : step s = .next t := by
  rw [step_busy he.busy hr]
  cases he with
  | bData hp v hsr => simp [perform, phaseData, hp, hsr]
  | bWHi hp v c hsr hcnt => simp [perform, phaseWHi, hp, hsr, hcnt]
  | wDly hp w hw => simp [perform, phaseWait, hp, hw]
  | _ hp => simp only [perform, takeSample_ph, hp]; rfl

theorem EventStep.rst {s t : State} (he : EventStep s t) : t.rst = s.rst.tail := by cases he <;> rfl

/-! ## A SEND in progress -/

theorem inSend_cases {p : Phase} (h : p.inSend = true) :
    p = .bClkLo ∨ p = .bData ∨ p = .bWLo ∨ p = .bClkHi ∨ p = .bWHi := by
  cases p <;> simp_all [Phase.inSend]

/-- A SEND with n events still to perform (10_state.md R25, R26); with none, it is ready. -/
structure Sending (n : Nat) (s : State) : Prop where
  left : stepsLeft s = n
  facts : s.ph = .ready ∨ s.ph.inSend = true ∧ sendFacts s

theorem Sending.inSend {n : Nat} {s : State} (h : Sending (n + 1) s) : s.ph.inSend = true := by
  obtain ⟨hleft, hready | ⟨hp, -⟩⟩ := h
  · simp [stepsLeft, hready] at hleft
  · exact hp

/-- The end of a bit leaves the events of the other bits (10_state.md R25). -/
theorem Sending.endBit (v : Byte) {c : BitVec 4} {s : State} (hc : c.toNat < 8) (hi : s.init = true) :
    Sending (35 - 5 * c.toNat) (endBit v c s) := by
  have hsucc : (c + 1#4).toNat = c.toNat + 1 := by
    simp only [BitVec.toNat_add, BitVec.toNat_ofNat]
    omega
  have hph : (Machine.endBit v c s).ph = if c.toNat + 1 < 8 then .bClkLo else .ready := by
    rw [endBit_ph, phase_after_bit, hsucc]
  by_cases h : c.toNat + 1 < 8
  · rw [if_pos h] at hph
    refine ⟨?_, .inr ⟨by rw [hph]; rfl, hi, rfl, c + 1#4, rfl, by omega⟩⟩
    simp only [stepsLeft, hph, endBit_cnt, Option.getD_some, hsucc]
    omega
  · rw [if_neg h] at hph
    refine ⟨?_, .inl hph⟩
    simp only [stepsLeft, hph]
    omega

/-- Each event of a SEND leaves one fewer (70_reset_and_hazards.md R208). -/
theorem Sending.event {n : Nat} {s : State} (h : Sending (n + 1) s) : ∃ t, EventStep s t ∧ Sending n t := by
  obtain ⟨hleft, hready | ⟨hp, hf⟩⟩ := h
  · simp [stepsLeft, hready] at hleft
  have ⟨hi, hsr, c, hc, hlt⟩ := hf
  obtain ⟨v, hv⟩ := Option.isSome_iff_exists.1 hsr
  rcases inSend_cases hp with hp | hp | hp | hp | hp <;>
    simp only [stepsLeft, hp, hc, Option.getD_some] at hleft
  · exact ⟨_, .bClkLo hp, by simp [stepsLeft, hc]; omega, .inr ⟨rfl, hf⟩⟩
  · exact ⟨_, .bData hp v hv, by simp [stepsLeft, hc]; omega, .inr ⟨rfl, hf⟩⟩
  · exact ⟨_, .bWLo hp, by simp [stepsLeft, hc]; omega, .inr ⟨rfl, hf⟩⟩
  · exact ⟨_, .bClkHi hp, by simp [stepsLeft, hc]; omega, .inr ⟨rfl, hf⟩⟩
  · obtain rfl : n = 35 - 5 * c.toNat := by omega
    exact ⟨_, .bWHi hp v c hv hc, .endBit v hlt hi⟩

/-! ## Two of them side by side -/

/-- Two states with the same registers but the values in `SR`, `CMDL` and DIO, and with as many events in TRACE:
the client sees the same of them (10_state.md R32, R33). -/
structure SameToClient (x y : State) : Prop where
  stb : x.stb = y.stb
  clk : x.clk = y.clk
  sr : x.sr.isSome = y.sr.isSome
  cnt : x.cnt = y.cnt
  ph : x.ph = y.ph
  init : x.init = y.init
  fault : x.fault = y.fault
  fcode : x.fcode = y.fcode
  rst : x.rst = y.rst
  events : x.trace.length = y.trace.length

section
variable {x y : State} (h : SameToClient x y)
include h

/-- `STATUS` is made of registers that are the same (10_state.md R32). -/
theorem SameToClient.status : status x = status y := by
  simp only [Machine.status, rdy, h.fcode, h.fault, h.init, h.ph]

theorem SameToClient.takeSample : SameToClient (takeSample x) (takeSample y) :=
  { h with rst := congrArg List.tail h.rst }

theorem SameToClient.goto (f : Phase) : SameToClient (x.goto f) (y.goto f) := { h with ph := rfl }

theorem SameToClient.pinWrite_clk (v : Level) : SameToClient (pinWrite .clk v x) (pinWrite .clk v y) :=
  { h with clk := rfl, events := by simp [h.events] }

/-- The level of DIO is not seen. -/
theorem SameToClient.pinWrite_dio (v u : Level) : SameToClient (pinWrite .dio v x) (pinWrite .dio u y) :=
  { h with events := by simp [h.events] }

theorem SameToClient.delay (p : Params) (n : Nat) : SameToClient (delay p n x) (delay p n y) :=
  { h with events := by simp [h.events] }

/-- The byte in `SR` is not seen. -/
theorem SameToClient.endBit (v u : Byte) (c : BitVec 4) : SameToClient (endBit v c x) (endBit u c y) :=
  { h with sr := rfl, cnt := rfl, ph := rfl }

/-- The event of a phase of SEND, in both states. -/
theorem SameToClient.event {x' : State} (he : EventStep x x') (hp : x.ph.inSend = true) :
    ∃ y', EventStep y y' ∧ SameToClient x' y' := by
  cases he with
  | bClkLo hph => exact ⟨_, .bClkLo (h.ph ▸ hph), (h.takeSample.pinWrite_clk false).goto _⟩
  | bData hph v hv =>
    obtain ⟨u, hu⟩ := Option.isSome_iff_exists.1 (h.sr.symm.trans (hv ▸ rfl))
    exact ⟨_, .bData (h.ph ▸ hph) u hu, (h.takeSample.pinWrite_dio _ _).goto _⟩
  | bWLo hph => exact ⟨_, .bWLo (h.ph ▸ hph), (h.takeSample.delay _ _).goto _⟩
  | bClkHi hph => exact ⟨_, .bClkHi (h.ph ▸ hph), (h.takeSample.pinWrite_clk true).goto _⟩
  | bWHi hph v c hv hc =>
    obtain ⟨u, hu⟩ := Option.isSome_iff_exists.1 (h.sr.symm.trans (hv ▸ rfl))
    exact ⟨_, .bWHi (h.ph ▸ hph) u c hu (h.cnt ▸ hc), (h.takeSample.delay _ _).endBit v u c⟩
  | _ hph => simp [hph, Phase.inSend] at hp

end

/-- Two SENDs go side by side to any of their events (40_serializer.md R101). -/
theorem runSteps_sameToClient {k n : Nat} {x y : State} (h : SameToClient x y) (hs : Sending n x) (hk : k ≤ n)
    (hq : quiet k x) : ∃ x' y', runSteps k x = .next x' ∧ runSteps k y = .next y' ∧ SameToClient x' y' := by
  induction k generalizing n x y with
  | zero => exact ⟨x, y, rfl, rfl, h⟩
  | succ k ih =>
    obtain ⟨n, rfl⟩ : ∃ m, n = m + 1 := ⟨n - 1, by omega⟩
    have hr : rstPort x = false := rstPort_of_quiet hq
    obtain ⟨x₁, hx, hs₁⟩ := hs.event
    obtain ⟨y₁, hy, h₁⟩ := h.event hx hs.inSend
    obtain ⟨x', y', hrun, hrun', h'⟩ := ih h₁ hs₁ (by omega)
      (quiet_later (j := 1) (by rwa [Nat.add_comm] at hq) (by rw [hx.rst, List.drop_one]))
    refine ⟨x', y', ?_, ?_, h'⟩
    · rw [runSteps, hx.step hr, ← hrun]
    · rw [runSteps, hy.step (by rwa [rstPort, ← h.rst]), ← hrun']

/-- Settles O41: the two acceptances differ in `SR` and `CMDL` alone, and 40 events follow. -/
theorem payloadIsNotRead : Obligations.PayloadIsNotRead := by
  intro v u s t t' k hi hq hk ht ht'
  obtain rfl := Host.Outcome.next.inj ((acceptSend_ok hi v).symm.trans ht)
  obtain rfl := Host.Outcome.next.inj ((acceptSend_ok hi u).symm.trans ht')
  have hsame : SameToClient (startSend v (latch (mkCommand opSend v) s)) (startSend u (latch (mkCommand opSend u) s)) :=
    ⟨rfl, rfl, rfl, rfl, rfl, rfl, rfl, rfl, rfl, rfl⟩
  have hsend : Sending 40 (startSend v (latch (mkCommand opSend v) s)) :=
    ⟨rfl, .inr ⟨rfl, hi, rfl, 0#4, rfl, by decide⟩⟩
  obtain ⟨x, y, hx, hy, h⟩ := runSteps_sameToClient hsame hsend hk hq
  exact ⟨x, y, hx, hy, h.status, h.events, h.stb, h.clk⟩

end Sys2Proof.Laws
end

section
/-! PROOF. A SEND from its acceptance to its last event (40_serializer.md R101, R102). -/

namespace Sys2Proof.Laws

open Sys2Proof.Machine

/-- Settles O10: SEND finds `INIT` set, and its acceptance puts the machine at the first phase of its 40 events. -/
theorem sendCompletes : Obligations.SendCompletes := by
  intro v s hi hq
  have haccept : exec (.send v) s = .next (startSend v (latch (mkCommand opSend v) s)) := acceptSend_ok hi v
  exact ⟨_, haccept, rfl, runSteps_send rfl rfl rfl hq⟩

end Sys2Proof.Laws
end

section
/-! PROOF. OPEN and CLOSE from their acceptance to their one event (41_framer.md R110, R111). -/

namespace Sys2Proof.Laws

open Sys2Proof.Machine

/-- Settles O11: OPEN finds `INIT` set and the line settled, and its acceptance puts the machine at its one
event. -/
theorem openCompletes : Obligations.OpenCompletes := by
  intro s hi hs hq
  have haccept : exec .openFrame s = .next ((latch (mkCommand opOpen 0#8) s).goto .fOpen) := acceptOpen_ok hi hs
  exact ⟨_, haccept, rfl, runSteps_open rfl hq⟩

/-- Settles O12: CLOSE finds `INIT` set, and its acceptance puts the machine at its one event. -/
theorem closeCompletes : Obligations.CloseCompletes := by
  intro s hi hq
  have haccept : exec .closeFrame s = .next ((latch (mkCommand opClose 0#8) s).goto .fClose) := acceptClose_ok hi
  exact ⟨_, haccept, rfl, runSteps_close rfl hq⟩

end Sys2Proof.Laws
end

section
/-! PROOF. The receiver between operations, with a frame open or with none, and what OPEN, SENDs and CLOSE make of
it; nested transactions (43_wire_protocol.md R131, R134; 41_framer.md R115). -/

namespace Sys2Proof.Laws

open Sys2Proof.Machine

/-! ## A SEND with no frame open -/

/-- Outside a frame, the events of one bit only move the lines (43_wire_protocol.md R134). -/
theorem run_bitEvents_of_no_frame {r : Rx} (p : Params) (b : Level) (ho : r.inFrame = false) :
    r.run (bitEvents p b) = { r with clk := some true, dio := some b } := by
  simp [bitEvents, Rx.event, ho]

/-- Outside a frame, a SEND only moves the lines (43_wire_protocol.md R134). -/
theorem run_sendEvents_of_no_frame {r : Rx} (p : Params) (v : Byte) (ho : r.inFrame = false) :
    r.run (sendEvents p v) = { r with clk := some true, dio := some (v.getLsbD 7) } := by
  simp [sendEvents_eq, firstBits, List.range_succ, run_append, run_bitEvents_of_no_frame, ho]

/-! ## The receiver between operations -/

/-- STB and CLK are high and no frame is open; `out` are the frames that have ended. -/
structure NoFrame (out : List Frame) (r : Rx) : Prop where
  stb : r.stb = some true
  clk : r.clk = some true
  inFrame : r.inFrame = false
  out_eq : r.out = out

/-- STB is low, CLK is high, and a frame is open with these bytes and no bits over; `out` are the frames that have
ended. -/
structure OpenFrame (out : List Frame) (bytes : List Byte) (r : Rx) : Prop where
  stb : r.stb = some false
  clk : r.clk = some true
  inFrame : r.inFrame = true
  bits : r.bits = []
  bytes_eq : r.bytes = bytes.map some
  out_eq : r.out = out

section
variable {out : List Frame} {bytes : List Byte} {r : Rx}

theorem NoFrame.frames_eq (h : NoFrame out r) : r.frames = out := by simp [Rx.frames, h.inFrame, h.out_eq]

/-- While the receiver sees STB high, no frame is open. -/
theorem noFrame_run {es : List Event} (hstb : (Rx.start.run es).stb = some true)
    (hclk : (Rx.start.run es).clk = some true) : NoFrame (frames es) (Rx.start.run es) := by
  have hno : (Rx.start.run es).inFrame = false :=
    Bool.eq_false_iff.2 fun ho => by simp [run_inFrame ho] at hstb
  exact ⟨hstb, hclk, hno, by simp [frames, Rx.frames, hno]⟩

/-- The falling edge of STB opens a frame. -/
theorem NoFrame.strobeLow (h : NoFrame out r) : OpenFrame out [] (r.event (.write .stb false)) := by
  have he : r.event (.write .stb false) = { r with stb := some false, inFrame := true, bits := [], bytes := [] } := by
    simp [Rx.event, h.stb]
  rw [he]
  exact ⟨rfl, h.clk, rfl, rfl, rfl, h.out_eq⟩

/-- A write of STB low in a frame has no edge. -/
theorem OpenFrame.strobeLow (h : OpenFrame out bytes r) : OpenFrame out bytes (r.event (.write .stb false)) := by
  have he : r.event (.write .stb false) = { r with stb := some false } := by simp [Rx.event, h.stb]
  rw [he]
  exact ⟨rfl, h.clk, h.inFrame, h.bits, h.bytes_eq, h.out_eq⟩

/-- The rising edge of STB ends the frame, with its bytes whole. -/
theorem OpenFrame.strobeHigh (h : OpenFrame out bytes r) :
    NoFrame (out ++ [closedFrame bytes]) (r.event (.write .stb true)) := by
  have he : r.event (.write .stb true) =
      { r with stb := some true, inFrame := false, out := r.out ++ [r.frame .closed] } := by
    simp [Rx.event, h.stb, h.inFrame]
  have hf : r.frame .closed = closedFrame bytes := by simp [Rx.frame, closedFrame, h.bytes_eq, h.bits]
  rw [he, hf]
  exact ⟨rfl, h.clk, rfl, by rw [h.out_eq]⟩

/-- A write of STB high with no frame open has no edge. -/
theorem NoFrame.strobeHigh (h : NoFrame out r) : NoFrame out (r.event (.write .stb true)) := by
  have he : r.event (.write .stb true) = { r with stb := some true, inFrame := false } := by simp [Rx.event, h.stb]
  rw [he]
  exact ⟨rfl, h.clk, rfl, h.out_eq⟩

/-- In a frame, SENDs are bytes of the frame, in order. -/
theorem OpenFrame.sends (h : OpenFrame out bytes r) (vs : List Byte) :
    OpenFrame out (bytes ++ vs) (r.run (vs.flatMap (sendEvents Config.hardware))) := by
  induction vs generalizing bytes r with
  | nil => simpa using h
  | cons v vs ih =>
    have hone : OpenFrame out (bytes ++ [v]) (r.run (sendEvents Config.hardware v)) := by
      rw [sentByteIsReassembled r v h.inFrame h.clk h.bits]
      exact ⟨h.stb, h.clk, h.inFrame, h.bits, by simp [h.bytes_eq], h.out_eq⟩
    rw [List.flatMap_cons, run_append, List.append_cons]
    exact ih hone

/-- With no frame open, SENDs are ignored. -/
theorem NoFrame.sends (h : NoFrame out r) (vs : List Byte) :
    NoFrame out (r.run (vs.flatMap (sendEvents Config.hardware))) := by
  induction vs generalizing r with
  | nil => exact h
  | cons v vs ih =>
    have hone : NoFrame out (r.run (sendEvents Config.hardware v)) := by
      rw [run_sendEvents_of_no_frame _ _ h.inFrame]
      exact ⟨h.stb, rfl, h.inFrame, h.out_eq⟩
    rw [List.flatMap_cons, run_append]
    exact ih hone

end

/-! ## Nested transactions -/

/-- Settles O47: the inner OPEN leaves the frame of the outer one open, the inner CLOSE ends it, and what follows
finds no frame. -/
theorem nestedTransactionEndsEarly : Obligations.NestedTransactionEndsEarly := by
  intro es as bs cs hstb hclk
  have hinner := ((noFrame_run hstb hclk).strobeLow.sends as).strobeLow
  have hended := (hinner.sends bs).strobeHigh
  have houter := (hended.sends cs).strobeHigh
  simpa [frames, run_append] using houter.frames_eq

end Sys2Proof.Laws
end

section
/-! PROOF. IDLE and WAIT from their acceptance to their last event (42_control.md R120, R121). -/

namespace Sys2Proof.Laws

open Sys2Proof.Machine

/-- Settles O13: IDLE needs no `INIT`, and its acceptance puts the machine at the first phase of its four events. -/
theorem idleCompletes : Obligations.IdleCompletes := by
  intro s hq
  have haccept : exec .idle s = .next ((latch (mkCommand opIdle 0#8) s).goto .iStb) := rfl
  exact ⟨_, haccept, rfl, runSteps_idle rfl hq⟩

/-- Settles O14: WAIT needs no `INIT`, and its acceptance leaves n in `CMDL`, where its one event reads it. -/
theorem waitCompletes : Obligations.WaitCompletes := by
  intro n s hq
  have haccept : exec (.wait n) s = .next ((latch (mkCommand opWait n) s).goto .wDly) := rfl
  exact ⟨_, haccept, rfl, runSteps_wait rfl rfl hq⟩

end Sys2Proof.Laws
end

section
/-! PROOF. The receiver's view of several transactions, and of the machine's own run of one: one frame each, with its
bytes (43_wire_protocol.md R133, R134; 41_framer.md R113). -/

namespace Sys2Proof.Laws

open Sys2Proof.Machine

/-! ## Transactions at the receiver -/

/-- A transaction is one closed frame with its bytes (43_wire_protocol.md R133). -/
theorem NoFrame.txn {out : List Frame} {r : Rx} (h : NoFrame out r) (bs : List Byte) :
    NoFrame (out ++ [closedFrame bs]) (r.run (txnEvents Config.hardware bs)) := by
  rw [txnEvents, run_cons, run_snoc]
  exact (h.strobeLow.sends bs).strobeHigh

/-- Transactions are one frame each, in order (43_wire_protocol.md R134). -/
theorem NoFrame.txns {out : List Frame} {r : Rx} (h : NoFrame out r) (ts : List (List Byte)) :
    NoFrame (out ++ ts.map closedFrame) (r.run (ts.flatMap (txnEvents Config.hardware))) := by
  induction ts generalizing out r with
  | nil => simpa using h
  | cons bs ts ih =>
    rw [List.flatMap_cons, run_append, List.map_cons, List.append_cons]
    exact ih (h.txn bs)

/-- Settles O44: with STB not low no frame is open, so a SEND only moves the lines; and each transaction is one
frame. -/
theorem framesOfTransactionsInOrder : Obligations.FramesOfTransactionsInOrder := by
  refine ⟨fun es v hstb => ?_, fun es ts hstb hclk => ?_⟩
  · have hno : (Rx.start.run es).inFrame = false := Bool.eq_false_iff.2 fun ho => hstb (run_inFrame ho)
    rw [frames, run_append, run_sendEvents_of_no_frame _ _ hno]
    simp [frames, Rx.frames, hno]
  · rw [frames, run_append]
    exact ((noFrame_run hstb hclk).txns ts).frames_eq

/-! ## The machine's run of a transaction -/

/-- A SEND leaves its last bit on DIO (40_serializer.md R102). -/
theorem dioLevel_send (p : Params) (v : Byte) (d : Option Level) :
    (sendEvents p v).foldl (traceLevelStep .dio) d = some (v.getLsbD 7) := rfl

/-- SENDs leave the last bit of the last byte on DIO. -/
theorem dioLevel_sends (p : Params) (bs : List Byte) (d : Option Level) :
    (bs.flatMap (sendEvents p)).foldl (traceLevelStep .dio) d =
      match bs.getLast? with
      | none => d
      | some b => some (b.getLsbD 7) := by
  cases bs using List.reverseRecOn with
  | nil => rfl
  | append_singleton bs b =>
    rw [List.flatMap_append, List.flatMap_singleton, List.foldl_append, dioLevel_send, List.getLast?_concat]

/-- A transaction leaves DIO as its SENDs do (41_framer.md R113). -/
theorem dioLevel_txn (bs : List Byte) (es : List Event) :
    traceLevel .dio (es ++ txnEvents Config.hardware bs) =
      match bs.getLast? with
      | none => traceLevel .dio es
      | some b => some (b.getLsbD 7) := by
  rw [txnEvents, List.append_cons, ← List.append_assoc, traceLevel_snoc, traceLevel, List.foldl_append]
  refine (dioLevel_sends _ bs _).trans ?_
  rw [← traceLevel, traceLevel_snoc]
  rfl

/-- The steps of a transaction of k bytes (41_framer.md R113). -/
theorem programSteps_txn (bs : List Byte) : programSteps (txn bs) = 41 * bs.length + 4 := by
  rw [programSteps, txn_events, txnEvents_length]
  simp only [txn, List.length_cons, List.length_append, List.length_map, List.length_nil]
  omega

/-- SENDs find `INIT` set and leave `SETTLE` at `T_INIT` (60_exceptions.md R172, R173). -/
theorem faultFree_sends (p : Params) (bs : List Byte) (js : List Instr) :
    faultFree p true p.tInit (bs.map .send ++ js) = faultFree p true p.tInit js := by
  induction bs with
  | nil => rfl
  | cons b bs ih =>
    rw [List.map_cons, List.cons_append, ← ih]
    simp [faultFree, Instr.operation]

/-- So does a whole transaction. -/
theorem faultFree_txn (p : Params) (bs : List Byte) (js : List Instr) :
    faultFree p true p.tInit (txn bs ++ js) = faultFree p true p.tInit js := by
  rw [txn, List.cons_append, List.append_assoc]
  simp [faultFree, Instr.operation, faultFree_sends]

/-- With its boot requirements met, a transaction runs (41_framer.md R113). -/
theorem txn_performs {s : State} {bs : List Byte} {ws : List CmdWord} (hp : s.ph = .ready) (hi : s.init = true)
    (hs : s.settle = Config.hardware.tInit) (hq : quiet (41 * bs.length + 4) s)
    (hprog : s.prog = (txn bs).map Instr.command ++ ws) : ∃ t, Performs s (txn bs) t := by
  rw [← programSteps_txn] at hq
  rcases program_performs_or_faults (txn bs) hp hprog hq with ht | ⟨-, -, -, -, -, -, hboot⟩
  · exact ht
  · have hfree := faultFree_txn Config.hardware bs []
    rw [List.append_nil, ← hs, ← hi, hboot] at hfree
    simp [faultFree] at hfree

/-- A transaction leaves the line settled: another OPEN would be accepted. -/
theorem Performs.txn_settle {s t : State} {bs : List Byte} (h : Performs s (txn bs) t) (hi : s.init = true)
    (hs : s.settle = Config.hardware.tInit) (ht : RegInv t) : t.settle = Config.hardware.tInit := by
  have hopen : faultFree Config.hardware t.init t.settle [.openFrame] = true := by
    rw [← h.boot, hi, hs, faultFree_txn]
    rfl
  simp only [faultFree, Instr.operation, Bool.and_true, Bool.and_eq_true, decide_eq_true_eq] at hopen
  exact Nat.le_antisymm ht.settle_le hopen.2

/-- Settles O45: the transaction performs its events, the receiver makes one frame of them, and the registers at the
end are those TRACE gives. -/
theorem transactionIsTransparent : Obligations.TransactionIsTransparent := by
  intro s bs ws hr _ hp hi hs hstb hq hprog
  obtain ⟨t, ht⟩ := txn_performs hp hi hs hq hprog
  have hrun : runSteps (41 * bs.length + 4) s = .next t := programSteps_txn bs ▸ ht.run
  have htrace : t.trace = s.trace ++ txnEvents Config.hardware bs := by rw [ht.trace, txn_events]
  have hrt : RegInv t := regInv_runSteps hr hrun
  obtain ⟨hstb₀, hclk₀, -⟩ := rx_lines hr
  obtain ⟨hstb₁, hclk₁, -⟩ := rx_lines hrt
  have hend : NoFrame (frames s.trace ++ [closedFrame bs]) (Rx.start.run t.trace) := by
    rw [htrace, run_append]
    exact (noFrame_run (hstb₀.trans hstb) (hclk₀.trans (by rw [hr.clock hi, hp]; rfl))).txn bs
  have hdio : t.dio = traceLevel .dio t.trace := (hrt.levels .dio).symm
  rw [htrace, dioLevel_txn, hr.levels .dio] at hdio
  exact ⟨t, hrun, htrace, txnEvents_length _ bs, hend.frames_eq, hstb₁.symm.trans hend.stb,
    hclk₁.symm.trans hend.clk, hdio, ht.ph, (List.append_cancel_left (hprog.symm.trans ht.prog)).symm, ht.fault,
    (ht.txn_settle hi hs hrt).trans hs.symm, programSteps_txn bs ▸ ht.rst⟩

end Sys2Proof.Laws
end

section
/-! PROOF. The special frames: the empty frame, and the frame with a SEND in progress, unterminated or cut
(43_wire_protocol.md R131, R132; 70_reset_and_hazards.md R193). -/

namespace Sys2Proof.Laws

open Sys2Proof.Machine

/-! ## A frame with bits over -/

/-- A frame is open with these bytes and n bits over; `out` are the frames that have ended. -/
structure PartFrame (out : List Frame) (bytes : List (Option Byte)) (n : Nat) (r : Rx) : Prop where
  inFrame : r.inFrame = true
  bytes_eq : r.bytes = bytes
  bits_length : r.bits.length = n
  out_eq : r.out = out

section
variable {out : List Frame} {bytes : List (Option Byte)} {n : Nat} {r : Rx}

theorem OpenFrame.part {bytes : List Byte} (h : OpenFrame out bytes r) : PartFrame out (bytes.map some) 0 r :=
  ⟨h.inFrame, h.bytes_eq, by rw [h.bits, List.length_nil], h.out_eq⟩

/-- The record of the frame in progress, if it ended here (43_wire_protocol.md R131). -/
theorem PartFrame.frame (h : PartFrame out bytes n r) (e : FrameEnd) : r.frame e = ⟨bytes, n, e⟩ := by
  rw [Rx.frame, h.bytes_eq, h.bits_length]

/-- At the end of TRACE the frame is unterminated. -/
theorem PartFrame.frames_eq (h : PartFrame out bytes n r) :
    r.frames = out ++ [⟨bytes, n, .unterminated⟩] := by
  rw [Rx.frames, if_pos h.inFrame, h.out_eq, h.frame]

/-- A reset cuts the frame (70_reset_and_hazards.md R193). -/
theorem PartFrame.frames_rst (h : PartFrame out bytes n r) :
    (r.event .rst).frames = out ++ [⟨bytes, n, .cut⟩] := by
  simp [Rx.event, Rx.frames, Rx.start, h.inFrame, h.out_eq, h.frame]

/-- Before its rising clock edge, a bit is not counted. -/
theorem PartFrame.beforeRise (h : PartFrame out bytes n r) (p : Params) (b : Level) {j : Nat} (hj : j < 4) :
    PartFrame out bytes n (r.run ((bitEvents p b).take j)) := by
  obtain ⟨ho, hbytes, hbits, hout⟩ := h
  match j, hj with
  | 0, _ => exact ⟨ho, hbytes, hbits, hout⟩
  | 1, _ => exact ⟨ho, hbytes, hbits, hout⟩
  | 2, _ => exact ⟨ho, hbytes, hbits, hout⟩
  | 3, _ => exact ⟨ho, hbytes, hbits, hout⟩

/-- Up to seven bits of a SEND stay over (43_wire_protocol.md R131). -/
theorem OpenFrame.sendBits {bytes : List Byte} (h : OpenFrame out bytes r) (p : Params) (v : Byte) (hn : n < 8) :
    PartFrame out (bytes.map some) n (r.run ((firstBits v n).flatMap (bitEvents p))) := by
  obtain ⟨d, hd⟩ := run_bits p (firstBits v n) h.inFrame h.clk (by simpa [h.bits] using hn)
  rw [hd]
  exact ⟨h.inFrame, h.bytes_eq, by simp [h.bits], h.out_eq⟩

end

/-! ## The first events of a SEND -/

/-- The first events of a run of bits: those of whole bits, then the first of the bit that follows. -/
theorem take_bits (p : Params) {bs : List Level} {n : Nat} (hn : n < bs.length) {j : Nat} (hj : j ≤ 5) :
    (bs.flatMap (bitEvents p)).take (5 * n + j) =
      (bs.take n).flatMap (bitEvents p) ++ (bitEvents p bs[n]).take j := by
  have hsplit : bs.flatMap (bitEvents p) =
      (bs.take n).flatMap (bitEvents p) ++ (bitEvents p bs[n] ++ (bs.drop (n + 1)).flatMap (bitEvents p)) := by
    rw [← List.flatMap_cons, ← List.drop_eq_getElem_cons hn, ← List.flatMap_append, List.take_append_drop]
  have hlen : ((bs.take n).flatMap (bitEvents p)).length = 5 * n := by
    simp [List.length_flatMap, bitEvents]
    omega
  rw [hsplit, ← hlen, List.take_length_add_append, List.take_append_of_le_length hj]

/-- The same of the eight bits of a SEND (40_serializer.md R101). -/
theorem take_sendEvents (p : Params) (v : Byte) {n : Nat} (hn : n < 8) {j : Nat} (hj : j ≤ 5) :
    (sendEvents p v).take (5 * n + j) =
      (firstBits v n).flatMap (bitEvents p) ++ (bitEvents p (v.getLsbD n)).take j := by
  rw [sendEvents_eq, take_bits p (by simpa using hn) hj]
  simp [firstBits, ← List.map_take, List.take_range, Nat.min_eq_left (Nat.le_of_lt hn)]

/-- The delay at the end of a bit does not matter to the receiver (43_wire_protocol.md R131). -/
theorem run_bitEvents_take_four (r : Rx) (p : Params) (b : Level) :
    r.run ((bitEvents p b).take 4) = r.run (bitEvents p b) := rfl

section
variable {out : List Frame} {bytes : List Byte} {r : Rx}

/-- Before the last rising clock edge of a SEND its sampled bits are over: one for every five events, the fourth of
them sampling it. -/
theorem OpenFrame.sendBegun (h : OpenFrame out bytes r) (p : Params) (v : Byte) {k : Nat} (hk : k < 39) :
    PartFrame out (bytes.map some) ((k + 1) / 5) (r.run ((sendEvents p v).take k)) := by
  obtain ⟨n, j, hj, rfl⟩ : ∃ n j, j < 5 ∧ k = 5 * n + j := ⟨k / 5, k % 5, by omega, by omega⟩
  rw [take_sendEvents p v (by omega) (by omega), run_append]
  rcases Nat.lt_or_ge j 4 with hlt | hge
  · rw [show (5 * n + j + 1) / 5 = n by omega]
    exact (h.sendBits p v (by omega)).beforeRise p _ hlt
  · obtain rfl : j = 4 := by omega
    have hsampled := h.sendBits p v (n := n + 1) (by omega)
    rw [firstBits_succ, List.flatMap_append, List.flatMap_singleton, run_append] at hsampled
    rw [show (5 * n + 4 + 1) / 5 = n + 1 by omega, run_bitEvents_take_four]
    exact hsampled

/-- From its last rising clock edge on, a SEND is a whole byte: only a delay follows. -/
theorem OpenFrame.sendSampled (h : OpenFrame out bytes r) (v : Byte) {k : Nat} (hk : 39 ≤ k) (hk' : k ≤ 40) :
    PartFrame out (bytes.map some ++ [some v]) 0 (r.run ((sendEvents Config.hardware v).take k)) := by
  have hsent : PartFrame out (bytes.map some ++ [some v]) 0 (r.run (sendEvents Config.hardware v)) := by
    simpa using (h.sends [v]).part
  rcases (by omega : k = 39 ∨ k = 40) with rfl | rfl
  · have hdelay : r.run ((sendEvents Config.hardware v).take 39) = r.run (sendEvents Config.hardware v) := rfl
    rw [hdelay]
    exact hsent
  · rw [List.take_of_length_le (by simp)]
    exact hsent

end

/-- Settles O46: OPEN and CLOSE are the transaction of no byte; in the other frames the SEND has made its byte whole or
has bits over, as its rising clock edges say. -/
theorem specialFrames : Obligations.SpecialFrames := by
  intro es hstb hclk
  have hrest := noFrame_run hstb hclk
  refine ⟨?_, fun bs v k hk => ?_⟩
  · rw [frames, run_append]
    exact (hrest.txn []).frames_eq
  intro sent bytes extra
  have hopen := hrest.strobeLow.sends bs
  have hsent : Rx.start.run sent = (((Rx.start.run es).event (.write .stb false)).run
      (bs.flatMap (sendEvents Config.hardware))).run ((sendEvents Config.hardware v).take k) := by
    simp only [sent, run_append, run_cons, run_nil]
  have hpart : PartFrame (frames es) bytes extra (Rx.start.run sent) := by
    rw [hsent]
    by_cases h39 : k < 39
    · simpa only [bytes, extra, if_pos h39, List.nil_append] using hopen.sendBegun Config.hardware v h39
    · simpa only [bytes, extra, if_neg h39, List.nil_append] using hopen.sendSampled v (Nat.le_of_not_lt h39) hk
  refine ⟨hpart.frames_eq, ?_⟩
  rw [frames, run_snoc]
  exact hpart.frames_rst

end Sys2Proof.Laws
end

section
/-! PROOF. The receiver's address of each data byte, and the payload bytes of the client's commands
(43_wire_protocol.md R141 to R148). -/

namespace Sys2Proof.Laws

open Sys2Proof.Machine

/-! ## Addresses (43_wire_protocol.md R148) -/

theorem payload_closedFrame (bs : List Byte) : (closedFrame bs).payload = some bs := by
  rw [Frame.payload, if_pos ⟨rfl, rfl⟩, closedFrame, List.mapM_map]
  exact List.mapM_pure.trans (congrArg some (List.map_id bs))

/-- A data frame writes its bytes from its address on (43_wire_protocol.md R148). -/
theorem autoIncrementWrites_dataFrame {a : Nat} (ha : a < 16) (ds : List Byte) :
    (closedFrame (addrByte a :: ds)).autoIncrementWrites = some (cellWrites a ds) := by
  simp [Frame.autoIncrementWrites, payload_closedFrame, decodePayload_addr ha]

/-- Up to address 15 each byte is one cell, at the next address (43_wire_protocol.md R148). -/
theorem cellWrites_eq_mapIdx {a : Nat} {ds : List Byte} (h : a + ds.length ≤ 16) :
    cellWrites a ds = ds.mapIdx fun j d => (a + j, d) := by
  induction ds generalizing a with
  | nil => rfl
  | cons d ds ih =>
    rw [List.length_cons] at h
    rw [cellWrites, if_pos (by omega), ih (by omega), List.mapIdx_cons]
    simp [Nat.add_right_comm, Nat.add_assoc]

/-- Settles O48: the frame begins with its address, and its cells are the data bytes by position. -/
theorem dataBytesReachNextAddresses : Obligations.DataBytesReachNextAddresses := by
  intro a ds ha hlen
  refine ⟨_, autoIncrementWrites_dataFrame ha ds, ?_⟩
  rw [cellWrites_eq_mapIdx hlen]
  exact ⟨List.length_mapIdx, fun j d hd => by rw [List.getElem?_mapIdx, hd, Option.map_some]⟩

/-! ## Payload bytes and refusals -/

/-- Settles O16: the address is looked at before anything else. -/
theorem addressPastFifteenIsRefused : Obligations.AddressPastFifteenIsRefused :=
  fun _ _ ha => if_neg (Nat.not_lt.2 ha)

/-- Settles O49: the fields of each byte, that of DISPCTL by its clamped brightness. -/
theorem payloadByteLayouts : Obligations.PayloadByteLayouts := by
  refine ⟨rfl, fun a ha => ?_, fun b => ?_⟩
  · obtain ⟨hfixed, haddr, -⟩ := addrByte_fields a ha
    exact ⟨hfixed, by rw [haddr]⟩
  · have hclamp : dispCtlByte b = dispCtlByte (min b 7) := by simp [dispCtlByte, clampBrightness]
    obtain ⟨-, -, hfixed, hbright⟩ := dispCtlByte_fields (min b 7) (by omega)
    rw [hclamp]
    exact ⟨hfixed, hbright⟩

/-- Settles O51: SET_POWER looks at the sign of the request only, and the byte of DISPCTL clamps. -/
theorem brightnessIsClamped : Obligations.BrightnessIsClamped := by
  intro n hn hn'
  have hexpand : ∀ r : Int, (ClientOp.setPower r).expand n =
      if r < 0 then .error .negativeBrightness else .ok (setPowerSeq r.toNat) := fun r => if_pos ⟨hn, hn'⟩
  refine ⟨fun r => ?_, fun r hr => ?_⟩
  · rw [hexpand, if_neg (by omega)]
    rfl
  · rw [hexpand, if_pos hr]

end Sys2Proof.Laws
end

section
/-! PROOF. The reset state meets the invariant of the receiver's view (43_wire_protocol.md R131). -/

namespace Sys2Proof.Laws

open Sys2Proof.Machine

/-- Settles O34: no event has come, so the receiver knows no line and no frame is open. -/
theorem resetMeetsFrameInv : Obligations.ResetMeetsFrameInv where
  stb := rfl
  clk := rfl
  dio := rfl
  open_iff := by decide
  bits := fun ho => absurd ho (by decide)
  closed_whole := fun _ hf => absurd hf List.not_mem_nil

end Sys2Proof.Laws
end

section
/-! PROOF. The bytes and the event counts of the client's sequences (44_client_sequences.md R150 to R161). -/

namespace Sys2Proof.Laws

open Sys2Proof.Machine

/-! ## What each operation issues -/

section
variable {n : Nat} (hn : 1 ≤ n ∧ n ≤ 16)
include hn

theorem expand_init : ClientOp.init.expand n = .ok (initSeq n) := if_pos hn

theorem expand_clear : ClientOp.clear.expand n = .ok (clearSeq n) := if_pos hn

theorem expand_writeFrame (f : List Mask) : (ClientOp.writeFrame f).expand n =
    if 1 ≤ f.length ∧ f.length ≤ n then .ok (writeFrameSeq f) else .error .frameLengthNotAdmitted := if_pos hn

theorem expand_displayText (s : List Nat) :
    (ClientOp.displayText s).expand n = .ok (writeFrameSeq (textFrame n s)) := if_pos hn

theorem expand_allOn : ClientOp.allOn.expand n = .ok (allOnSeq n) := if_pos hn

theorem expand_setIndicator (sel : Selector) :
    (ClientOp.setIndicator sel).expand n = .ok (writeFrameSeq (indicatorFrame n sel)) := if_pos hn

theorem expand_allOff : ClientOp.allOff.expand n = .ok (clearSeq n) := if_pos hn

end

/-! ## Their bytes -/

theorem addrByte_zero : addrByte 0 = 0xC0#8 := by decide

/-- CLEAR byte by byte (R152). -/
theorem clearSeq_eq (n : Nat) : clearSeq n = txn (0xC0#8 :: List.replicate (2 * n) 0x00#8) := by
  rw [clearSeq, addrByte_zero]

/-- WRITE_FRAME byte by byte, each mask low byte first (R154, 20_memory.md R53). -/
theorem writeFrameSeq_eq (f : List Mask) : writeFrameSeq f = txn [0x40#8] ++
    txn (0xC0#8 :: f.flatMap fun m => [m.extractLsb' 0 8, m.extractLsb' 8 8]) := by
  rw [writeFrameSeq, dataFrame, addrByte_zero]
  rfl

/-- Settles O54: what each operation issues, with the command bytes evaluated. -/
theorem clientFramesAreTheBytesOfTheSpec : Obligations.ClientFramesAreTheBytesOfTheSpec := by
  intro n hn hn'
  have hadm : 1 ≤ n ∧ n ≤ 16 := ⟨hn, hn'⟩
  have hdim : dispCtlByte 4 = 0x8C#8 := by decide
  have hfull : dispCtlByte 7 = 0x8F#8 := by decide
  refine ⟨?clear, ?allOff, fun f hf hf' => ?writeFrame, fun f hf => ?refused, ?allOn, ?init⟩
  case clear => rw [expand_clear hadm, clearSeq_eq]
  case allOff => rw [expand_allOff hadm, expand_clear hadm]
  case writeFrame => rw [expand_writeFrame hadm, if_pos ⟨hf, hf'⟩, writeFrameSeq_eq]
  case refused => rw [expand_writeFrame hadm, if_neg (by omega)]
  case allOn => rw [expand_allOn hadm, allOnSeq, addrByte_zero, hfull, dataModeByte]
  case init => rw [expand_init hadm, initSeq, clearSeq_eq, hdim, dataModeByte]

/-! ## The frames a session builds itself -/

/-- An operation that issues a frame of n masks issues WRITE_FRAME of it, for that length is admitted
(R154, R155, R157). -/
theorem expand_wholeFrame {n : Nat} {op : ClientOp} {f : List Mask} (hn : 1 ≤ n ∧ n ≤ 16)
    (hop : op.expand n = .ok (writeFrameSeq f)) (hf : f.length = n) :
    op.expand n = (ClientOp.writeFrame f).expand n ∧
    op.expand n = .ok (txn [0x40#8] ++
      txn (0xC0#8 :: f.flatMap fun m => [m.extractLsb' 0 8, m.extractLsb' 8 8])) := by
  refine ⟨?_, hop.trans (by rw [writeFrameSeq_eq])⟩
  rw [hop, expand_writeFrame hn, if_pos ⟨hf ▸ hn.1, hf.le⟩]

@[simp] theorem textFrame_length (n : Nat) (s : List Nat) : (textFrame n s).length = n := by
  simp only [textFrame, List.length_append, List.length_map, List.length_take, List.length_replicate]
  omega

/-- A position of a text's frame: the glyph of its character, or the blank mask where the text has ended (R155). -/
theorem textFrame_getElem? {n p : Nat} (s : List Nat) (hp : p < n) :
    (textFrame n s)[p]? = some ((s[p]?.map glyph).getD Config.blank) := by
  rcases Nat.lt_or_ge p s.length with hs | hs
  · rw [textFrame, List.getElem?_append_left (by simp [hp, hs]), List.getElem?_map, List.getElem?_take_of_lt hp,
      List.getElem?_eq_getElem hs]
    rfl
  · have hblank : p - min n s.length < n - s.length := by omega
    rw [textFrame, List.getElem?_append_right (by simp [hs]), List.getElem?_eq_none hs]
    simp [hblank]

/-- Settles O52: each position is a glyph or a blank, and the frame has the length WRITE_FRAME admits. -/
theorem textFrameIsGlyphsThenBlanks : Obligations.TextFrameIsGlyphsThenBlanks := by
  intro n s
  refine ⟨textFrame_length n s, fun p hp => ?_, fun hn hn' =>
    expand_wholeFrame ⟨hn, hn'⟩ (expand_displayText ⟨hn, hn'⟩ s) (textFrame_length n s)⟩
  rw [textFrame_getElem? s hp]
  cases s[p]? <;> rfl

@[simp] theorem indicatorFrame_length (n : Nat) (sel : Selector) : (indicatorFrame n sel).length = n := by
  rw [indicatorFrame]
  cases sel.index <;> simp

/-- A selector selects digit p when it is position p + 1, for the first three digits (R157). -/
theorem selector_index_eq_some_iff (sel : Selector) (p : Nat) :
    sel.index = some p ↔ sel = .position (p + 1) ∧ p < 3 := by
  cases sel with
  | off => simp [Selector.index]
  | position k =>
    simp only [Selector.index, Option.ite_none_right_eq_some, Option.some.injEq, Selector.position.injEq]
    omega

/-- A position of an indicator's frame: bit 15 at the digit selected, 0 elsewhere (R157). -/
theorem indicatorFrame_getElem? {n p : Nat} (sel : Selector) (hp : p < n) :
    (indicatorFrame n sel)[p]? = some (if sel.index = some p then indicatorMask else 0#16) := by
  rw [indicatorFrame]
  cases sel.index with
  | none => simp [hp]
  | some i =>
    rcases eq_or_ne i p with rfl | hne
    · simp [hp]
    · simp [hp, hne]

/-- Settles O53: the one position set is the digit selected, and the frame has the length WRITE_FRAME admits. -/
theorem indicatorFrameHasOneBit : Obligations.IndicatorFrameHasOneBit := by
  intro n sel
  refine ⟨indicatorFrame_length n sel, fun p hp => ?_, fun hn hn' =>
    expand_wholeFrame ⟨hn, hn'⟩ (expand_setIndicator ⟨hn, hn'⟩ sel) (indicatorFrame_length n sel)⟩
  rw [indicatorFrame_getElem? sel hp, indicatorMask]
  simp only [selector_index_eq_some_iff]

/-! ## Event counts (R161) -/

/-- A transaction of k bytes has 40k + 2 events (41_framer.md R113). -/
theorem eventCount_txn (p : Params) (bs : List Byte) :
    ((txn bs).flatMap (instrEvents p)).length = 40 * bs.length + 2 := by
  rw [txn_events, txnEvents_length]

/-- A data frame of m masks has the address byte and two bytes for each (43_wire_protocol.md R144). -/
theorem dataFrame_length (a : Nat) (ms : List Mask) : (dataFrame a ms).length = 1 + 2 * ms.length := by
  simp only [dataFrame, maskBytes, List.length_cons, List.length_flatMap, List.length_nil, List.map_const',
    List.sum_replicate, smul_eq_mul]
  omega

theorem eventCount_clearSeq (p : Params) (n : Nat) :
    ((clearSeq n).flatMap (instrEvents p)).length = 40 * (1 + 2 * n) + 2 := by
  rw [clearSeq, eventCount_txn, List.length_cons, List.length_replicate, Nat.add_comm (2 * n)]

/-- Settles O55: each sequence is made of transactions, whose events are counted by their bytes. -/
theorem sequenceEventCounts : Obligations.SequenceEventCounts := by
  intro n r f
  refine ⟨eventCount_clearSeq _ n, eventCount_txn _ _, ?writeFrame, ?init⟩
  case writeFrame =>
    rw [writeFrameSeq, List.flatMap_append, List.length_append, eventCount_txn, eventCount_txn, dataFrame_length]
    rfl
  case init =>
    have hboot : (([.idle, .wait 10#8] : List Instr).flatMap (instrEvents Config.hardware)).length = 4 + 1 := rfl
    simp only [initSeq, List.flatMap_append, List.length_append, eventCount_txn, eventCount_clearSeq, hboot,
      List.length_singleton]

end Sys2Proof.Laws
end

section
/-! PROOF. Acceptance and the faults it takes: the checks in their order, `F_NOINIT`, `F_SETTLE`, and what fault entry
writes (60_exceptions.md R172 to R175). -/

namespace Sys2Proof.Laws

open Sys2Proof.Machine

/-! ## The faults of an operation's acceptance -/

/-- SEND, OPEN and CLOSE, and so the payload mnemonics, take `F_NOINIT` before the first IDLE (60_exceptions.md R172,
30_encoding.md R79). -/
theorem exec_noInit {i : Instr} {s : State} (hwf : i.wellFormed = true) (hi : s.init = false)
    (hn : needsInit i.operation = true) :
    exec i s = .next (enterFault .noInit i.command (latch i.command s)) := by
  cases i with
  | send v => exact acceptSend_noInit hi v
  | openFrame => exact acceptOpen_noInit hi
  | closeFrame => exact acceptClose_noInit hi
  | dataMode => exact acceptSend_noInit hi dataModeByte
  | addr a =>
    rw [execAddr_eq (of_decide_eq_true hwf)]
    exact acceptSend_noInit hi (addrByte a)
  | dispCtl b => exact acceptSend_noInit hi (dispCtlByte b)
  | idle => cases hn
  | wait n => cases hn

/-- OPEN takes `F_SETTLE` before `T_INIT` µs of delay (60_exceptions.md R173). -/
theorem execOpen_unsettled {s : State} (hi : s.init = true) (hs : s.settle < Config.hardware.tInit) :
    exec .openFrame s = .next (enterFault .settle 0x100#11 (latch 0x100#11 s)) := acceptOpen_unsettled hi hs

/-- Settles O18: the acceptance of SEND, OPEN and CLOSE finds `INIT` 0, and that of IDLE and WAIT does not
look at it. -/
theorem commandsBeforeIdleFault : Obligations.CommandsBeforeIdleFault :=
  ⟨fun _ _ hwf hi hn => exec_noInit hwf hi hn, fun _ => ⟨rfl, fun _ => rfl⟩⟩

/-! ## The checks in their order -/

/-- An instruction that a command word decodes to is an operation, and the word is its own (30_encoding.md R72). -/
theorem operation_of_decodeCommand {w : CmdWord} {i : Instr} (hd : decodeCommand w = .ok i) : i.operation = i := by
  obtain ⟨-, rfl⟩ := decodeCommand_wellFormed hd
  exact Except.ok.inj ((decodeCommand_command i).symm.trans hd)

/-- Settles O17: a word that decodes is the command word of an operation, whose checks pass or fault. -/
theorem acceptanceChecksInOrder : Obligations.AcceptanceChecksInOrder := by
  intro s w hw
  cases hd : decodeCommand w with
  | error e => exact step_illegal hw hd
  | ok i =>
    obtain ⟨hwf, rfl⟩ := decodeCommand_wellFormed hd
    have hop := operation_of_decodeCommand hd
    rw [stepRunsTheDecodedInstruction s _ i hw hd]
    dsimp only
    by_cases hno : needsInit i = true ∧ s.init = false
    · rw [if_pos hno]
      exact exec_noInit (s := takeWord s) hwf hno.2 (hop.symm ▸ hno.1)
    have hinit : needsInit i = true → s.init = true := by simpa using hno
    rw [if_neg hno]
    by_cases hopen : i = .openFrame ∧ s.settle < Config.hardware.tInit
    · rw [if_pos hopen]
      obtain ⟨rfl, hs⟩ := hopen
      exact execOpen_unsettled (s := takeWord s) (hinit rfl) hs
    rw [if_neg hopen]
    cases i with
    | send v => exact acceptSend_ok (s := takeWord s) (hinit rfl) v
    | openFrame => exact acceptOpen_ok (s := takeWord s) (hinit rfl) (by simpa using hopen)
    | closeFrame => exact acceptClose_ok (s := takeWord s) (hinit rfl)
    | idle => rfl
    | wait n => rfl
    | dataMode => cases hop
    | addr a => cases hop
    | dispCtl b => cases hop

/-! ## `F_SETTLE` -/

/-- The check of `INIT` leaves `FCODE` to what follows it, or sets it to `F_NOINIT` (60_exceptions.md R172). -/
theorem requireInit_fcode {s t : State} {go : State → Result} (hgo : ∀ u, go s = .next u → u.fcode = s.fcode)
    (h : requireInit s go = .next t) : t.fcode = s.fcode ∨ t.fcode = .noInit := by
  unfold requireInit at h
  split at h
  · exact .inl (hgo t h)
  · unfold takeFault at h
    split at h <;> cases h
    exact .inr rfl

theorem acceptSend_fcode {v : Byte} {s t : State} (h : acceptSend v s = .next t) :
    t.fcode = s.fcode ∨ t.fcode = .noInit :=
  requireInit_fcode (s := latch (mkCommand opSend v) s) (fun u hu => by cases hu; rfl) h

theorem acceptClose_fcode {s t : State} (h : acceptClose s = .next t) :
    t.fcode = s.fcode ∨ t.fcode = .noInit :=
  requireInit_fcode (s := latch (mkCommand opClose 0#8) s) (fun u hu => by cases hu; rfl) h

/-- An acceptance other than OPEN's leaves `FCODE` or sets it to `F_NOINIT`: only OPEN checks `SETTLE`
(60_exceptions.md R173). -/
theorem exec_fcode {i : Instr} {s t : State} (hi : i ≠ .openFrame) (h : exec i s = .next t) :
    t.fcode = s.fcode ∨ t.fcode = .noInit := by
  cases i with
  | send v => exact acceptSend_fcode h
  | openFrame => exact absurd rfl hi
  | closeFrame => exact acceptClose_fcode h
  | idle =>
    cases h
    exact .inl rfl
  | wait n =>
    cases h
    exact .inl rfl
  | dataMode => exact acceptSend_fcode h
  | addr a =>
    rcases Nat.lt_or_ge a 16 with ha | ha
    · exact acceptSend_fcode ((execAddr_eq ha s).symm.trans h)
    · cases (addressPastFifteenIsRefused a s ha).symm.trans h
  | dispCtl b => exact acceptSend_fcode h

/-- Settles O19: OPEN's third check, the codes of the other acceptances, and `SETTLE` at the end of WAIT and SEND. -/
theorem openBeforeSettledFaults : Obligations.OpenBeforeSettledFaults := by
  refine ⟨fun s hi hs => execOpen_unsettled hi hs, fun i s t hi h hc => ?_, fun n s hq => ?_, fun v s hi hq => ?_⟩
  · rcases exec_fcode hi h with hkeep | hnew
    · exact hkeep.symm.trans hc
    · cases hnew.symm.trans hc
  · obtain ⟨t, ht, -, hrun⟩ := waitCompletes n s hq
    exact ⟨t, _, ht, hrun, rfl⟩
  · obtain ⟨t, ht, -, hrun⟩ := sendCompletes v s hi hq
    exact ⟨t, _, ht, hrun, rfl⟩

/-! ## Fault entry -/

/-- Settles O20: a reset and an event lead to another phase, and of the acceptances only a fault leads to `FAULTED`. -/
theorem faultEntryWritesOnlyFaultState : Obligations.FaultEntryWritesOnlyFaultState := by
  intro s t hs hst ht
  cases step_kind hst with
  | reset _ => cases ht
  | accept w hw ha =>
    cases ha with
    | fault c hc => exact ⟨w, c, hw, hc, rfl⟩
    | _ => cases ht
  | event _ he =>
    obtain ⟨-, -, -, hp⟩ := he.keeps_fault
    exact absurd ht hp
  | pass _ _ => exact absurd ht hs

end Sys2Proof.Laws
end

section
/-! PROOF. A step by the sample of `RST`, the states where no agent has a step, and reads of ⊥ along a run
(60_exceptions.md R171, R176, R180; 70_reset_and_hazards.md R190, R197). -/

namespace Sys2Proof.Laws

open Sys2Proof.Machine

/-! ## A step by the sample of `RST` -/

/-- A sample 1 is a reset, in every state (70_reset_and_hazards.md R190). -/
theorem step_reset {s : State} (hr : rstPort s = true) : step s = .next (applyReset (takeSample s)) := by
  rcases s with ⟨_, _, _, _, _, _, _, _, _, _, _, _, _, _, _, _ | ⟨_ | _, r⟩⟩
  · cases hr
  · cases hr
  · rfl

/-- With no reset, the sample is taken and the system moves (10_state.md R27). -/
theorem step_advance {s : State} (hr : rstPort s = false) : step s = advance Config.hardware (takeSample s) := by
  rcases s with ⟨_, _, _, _, _, _, _, _, _, _, _, _, _, _, _, _ | ⟨_ | _, r⟩⟩
  · rfl
  · rfl
  · cases hr

/-- In `FAULTED` only the passing of a sample is left (60_exceptions.md R176; log 9). -/
theorem step_faulted {s : State} (hp : s.ph = .faulted) (hr : rstPort s = false) :
    step s = if s.rst.tail = [] then .fault .stuckFaulted else .next (takeSample s) := by
  rw [step_advance hr, advance, takeSample_ph, hp]
  simp

/-- At the end of a run only the passing of a sample is left (70_reset_and_hazards.md R197; log 9). -/
theorem step_runEnded {s : State} (he : runEnded s) (hr : rstPort s = false) :
    step s = if s.rst.tail = [] then .refused .runEnded else .next (takeSample s) := by
  obtain ⟨hprog, hp⟩ := he
  rw [step_advance hr, advance, takeSample_ph, hp, takeSample_prog, hprog]
  simp

/-- Settles O22: in `FAULTED` a sample 0 passes, and a sample 1 is a reset. -/
theorem onlyResetLeavesFaulted : Obligations.OnlyResetLeavesFaulted := by
  intro s hp
  refine ⟨by simp [cmdReady, rdy, hp], fun hr => ?_, fun r hr => ?_, fun r hr => ?_⟩
  · rw [step_faulted hp (by simp [rstPort, hr]), hr]
    rfl
  · rw [step_faulted hp (by simp [rstPort, hr]), takeSample, hr]
    rfl
  · exact ⟨_, step_reset (by simp [rstPort, hr]), rfl, rfl⟩

/-! ## Reads of ⊥ -/

/-- A phase is `READY`, `FAULTED` or one of an operation (10_state.md R26). -/
theorem ready_or_faulted_or_busy : ∀ ph : Phase, ph = .ready ∨ ph = .faulted ∨ ph.busy = true := by
  rintro (_ | _) <;> simp [Phase.busy]

/-- No step from a state that meets the invariant reads ⊥: a phase of an operation goes on, an acceptance answers a
next state, and where no agent has a step nothing is read (60_exceptions.md R171). -/
theorem step_ne_readUnspecified {s : State} (h : RegInv s) : step s ≠ .fault .readUnspecified := by
  cases hr : rstPort s with
  | true => simp [step_reset hr]
  | false =>
    rcases ready_or_faulted_or_busy s.ph with hp | hp | hb
    · cases hprog : s.prog with
      | nil =>
        rw [step_runEnded ⟨hprog, hp⟩ hr]
        split <;> simp
      | cons w ws =>
        rw [step_presents (w := w) ⟨hp, by simp [hprog], hr⟩]
        obtain ⟨t, ht⟩ := acceptWord_next Config.hardware w (takeWord s)
        simp [ht]
    · rw [step_faulted hp hr]
      split <;> simp
    · obtain ⟨t, ht⟩ := step_busy_next h hb hr
      simp [ht]

/-- A run that ends in a fault reaches a state whose step is that fault. -/
theorem step_of_runSteps_fault {k : Nat} {s : State} {e : Fault} (h : runSteps k s = .fault e) :
    ∃ j t, runSteps j s = .next t ∧ step t = .fault e := by
  induction k generalizing s with
  | zero => cases h
  | succ k ih =>
    cases hst : step s with
    | next u =>
      rw [runSteps, hst] at h
      obtain ⟨j, t, hrun, ht⟩ := ih h
      exact ⟨1 + j, t, by rw [runSteps_step hst, hrun], ht⟩
    | fault e' =>
      rw [runSteps, hst] at h
      cases h
      exact ⟨0, s, rfl, hst⟩
    | refused e' =>
      rw [runSteps, hst] at h
      cases h

/-- Settles O36: the run keeps the invariant, so the step it would stop at reads no ⊥. -/
theorem unspecifiedIsNeverRead : Obligations.UnspecifiedIsNeverRead := by
  intro s h k hrun
  obtain ⟨j, t, ht, hst⟩ := step_of_runSteps_fault hrun
  exact step_ne_readUnspecified (regInv_runSteps h ht) hst

end Sys2Proof.Laws
end

section
/-! PROOF. The client's sequences, INIT_SEQ first, meet every boot requirement, and a run that comes to its end has
passed no fault (44_client_sequences.md R150 to R158; 60_exceptions.md R176, R181). -/

namespace Sys2Proof.Laws

open Sys2Proof.Machine

/-! ## The sequences meet the boot requirements -/

/-- A sequence that takes no fault once the line has settled, and leaves it settled (60_exceptions.md R172, R173). -/
def Settled (is : Sequence) : Prop :=
  ∀ js, faultFree Config.hardware true Config.hardware.tInit (is ++ js) =
    faultFree Config.hardware true Config.hardware.tInit js

theorem settled_txn (bs : List Byte) : Settled (txn bs) := faultFree_txn Config.hardware bs

theorem Settled.append {is js : Sequence} (hi : Settled is) (hj : Settled js) : Settled (is ++ js) :=
  fun ks => by rw [List.append_assoc, hi, hj]

theorem settled_writeFrameSeq (f : List Mask) : Settled (writeFrameSeq f) := (settled_txn _).append (settled_txn _)

/-- INIT_SEQ brings the line from any state to the settled one: its IDLE sets `INIT`, its WAIT is `T_INIT` µs, and
transactions follow (R150, 70_reset_and_hazards.md R195). -/
theorem faultFree_initSeq (init : Bool) (settle n : Nat) (js : List Instr) :
    faultFree Config.hardware init settle (initSeq n ++ js) =
      faultFree Config.hardware true Config.hardware.tInit js := by
  have hframes : Settled (txn [dispCtlByte 4] ++ (txn [dataModeByte] ++ clearSeq n)) :=
    (settled_txn _).append ((settled_txn _).append (settled_txn _))
  rw [← hframes js, initSeq]
  simp only [List.append_assoc]
  rfl

/-- What the session admits, for an admitted digit count (00_scope.md R7). -/
theorem expand_admitted {n : Nat} {op : ClientOp} {is : Sequence} (h : op.expand n = .ok is) :
    1 ≤ n ∧ n ≤ 16 := by
  by_contra hn
  have hrefused : op.expand n = .error .digitCountNotAdmitted := if_neg hn
  cases hrefused.symm.trans h

theorem expand_setPower {n : Nat} (hn : 1 ≤ n ∧ n ≤ 16) (r : Int) : (ClientOp.setPower r).expand n =
    if r < 0 then .error .negativeBrightness else .ok (setPowerSeq r.toNat) := if_pos hn

/-- Each operation of the session is transactions only, but for INIT_SEQ, which settles the line again (R150 to
R158). -/
theorem settled_expand {n : Nat} {op : ClientOp} {is : Sequence} (h : op.expand n = .ok is) : Settled is := by
  have hn := expand_admitted h
  cases op with
  | init =>
    cases (expand_init hn).symm.trans h
    exact faultFree_initSeq true Config.hardware.tInit n
  | setPower r =>
    rw [expand_setPower hn] at h
    split at h <;> cases h
    exact settled_txn _
  | clear =>
    cases (expand_clear hn).symm.trans h
    exact settled_txn _
  | writeFrame f =>
    rw [expand_writeFrame hn] at h
    split at h <;> cases h
    exact settled_writeFrameSeq f
  | displayText s =>
    cases (expand_displayText hn s).symm.trans h
    exact settled_writeFrameSeq _
  | allOn =>
    cases (expand_allOn hn).symm.trans h
    exact ((settled_txn _).append (settled_txn _)).append (settled_txn _)
  | setIndicator sel =>
    cases (expand_setIndicator hn sel).symm.trans h
    exact settled_writeFrameSeq _
  | allOff =>
    cases (expand_allOff hn).symm.trans h
    exact settled_txn _

/-- What a list of operations issues is what the first issues and then what the others do. -/
theorem expandAll_cons {n : Nat} {op : ClientOp} {ops : List ClientOp} {is : Sequence}
    (h : expandAll n (op :: ops) = .ok is) :
    ∃ a b, op.expand n = .ok a ∧ expandAll n ops = .ok b ∧ is = a ++ b := by
  rw [expandAll] at h
  split at h <;> cases h
  exact ⟨_, _, by assumption, by assumption, rfl⟩

theorem settled_expandAll {n : Nat} {ops : List ClientOp} {is : Sequence} (h : expandAll n ops = .ok is) :
    Settled is := by
  induction ops generalizing is with
  | nil =>
    cases h
    exact fun _ => rfl
  | cons op ops ih =>
    obtain ⟨a, b, ha, hb, rfl⟩ := expandAll_cons h
    exact (settled_expand ha).append (ih hb)

/-- With INIT first, a session's sequence meets every boot requirement from reset (60_exceptions.md R181). -/
theorem faultFree_expandAll_init {n : Nat} {ops : List ClientOp} {is : List Instr}
    (h : expandAll n (.init :: ops) = .ok is) : faultFree Config.hardware false 0 is = true := by
  obtain ⟨a, b, ha, hb, rfl⟩ := expandAll_cons h
  cases (expand_init (expand_admitted ha)).symm.trans ha
  rw [faultFree_initSeq]
  simpa [faultFree] using settled_expandAll hb []

/-- The client's sequences, loaded at reset, perform every command (60_exceptions.md R181, 70_reset_and_hazards.md
R195). -/
theorem clientSequences_perform {n : Nat} {ops : List ClientOp} {is : List Instr}
    (h : expandAll n (.init :: ops) = .ok is) : ∃ t, Performs (load is State.reset) is t := by
  rcases program_performs_or_faults is (s := load is State.reset) (ws := []) rfl (List.append_nil _).symm
    (quiet_of_nil rfl) with ht | ⟨-, -, -, -, -, -, hfree⟩
  · exact ht
  · cases (faultFree_expandAll_init h).symm.trans hfree

/-! ## A run that comes to its end passes no fault -/

/-- From a state without a step, a run leads nowhere else. -/
theorem runSteps_of_no_step {k : Nat} {s t : State} (hno : ∀ u, step s ≠ .next u) (h : runSteps k s = .next t) :
    t = s := by
  cases k with
  | zero => exact (Host.Outcome.next.inj h).symm
  | succ k =>
    rw [runSteps] at h
    split at h
    · exact absurd ‹_› (hno _)
    · cases h
    · cases h

/-- A step takes one sample of `RST` (70_reset_and_hazards.md R192). -/
theorem step_rst {s t : State} (h : step s = .next t) : t.rst = s.rst.tail := by
  cases step_kind h with
  | reset _ => rfl
  | accept _ _ ha => cases ha <;> rfl
  | event _ he => cases he <;> rfl
  | pass _ _ => rfl

section
variable {s t u : State} {j k : Nat} (hrst : s.rst = [])
include hrst

theorem runSteps_rst_nil (h : runSteps k s = .next t) : t.rst = [] :=
  runSteps_invariant (P := fun s => s.rst = []) (fun _ _ hs hst => by rw [step_rst hst, hs]; rfl) hrst h

theorem no_step_of_faulted (hp : s.ph = .faulted) (u : State) : step s ≠ .next u := by
  simp [step_faulted hp (by simp [rstPort, hrst]), hrst]

theorem no_step_of_runEnded (he : runEnded s) (u : State) : step s ≠ .next u := by
  simp [step_runEnded he (by simp [rstPort, hrst]), hrst]

/-- With no reset to come, a run that comes to its end was never in `FAULTED`, which it could not have left
(60_exceptions.md R176). -/
theorem not_faulted_of_runEnded (hend : runSteps j s = .next t) (he : runEnded t) (h : runSteps k s = .next u) :
    u.ph ≠ .faulted := by
  intro hp
  have htu : t = u := by
    rcases Nat.le_total k j with hkj | hjk
    · obtain ⟨m, rfl⟩ := Nat.exists_eq_add_of_le hkj
      rw [runSteps_trans h] at hend
      exact runSteps_of_no_step (no_step_of_faulted (runSteps_rst_nil hrst h) hp) hend
    · obtain ⟨m, rfl⟩ := Nat.exists_eq_add_of_le hjk
      rw [runSteps_trans hend] at h
      exact (runSteps_of_no_step (no_step_of_runEnded (runSteps_rst_nil hrst hend) he) h).symm
  cases he.2.symm.trans (htu ▸ hp)

end

/-- The invariant does not speak of the client's commands (10_state.md R33). -/
theorem regInv_load {s : State} (h : RegInv s) (is : List Instr) : RegInv (load is s) := { h with }

/-- Settles O56: the run performs every command and so comes to its end, and `FAULT` is 1 in `FAULTED` only. -/
theorem clientSequencesTakeNoFault : Obligations.ClientSequencesTakeNoFault := by
  intro n ops is k t h hrun
  obtain ⟨u, hu⟩ := clientSequences_perform h
  have hend : runEnded u := ⟨List.append_right_eq_self.1 hu.prog.symm, hu.ph⟩
  have hph := not_faulted_of_runEnded rfl hu.run hend hrun
  have hinv := regInv_runSteps (regInv_load resetMeetsInv is) hrun
  exact ⟨Bool.eq_false_iff.2 fun hf => hph (hinv.fault_iff.1 hf), hph⟩

end Sys2Proof.Laws
end

section
/-! PROOF. What a reset leaves, and the first command taken after it (70_reset_and_hazards.md R190 to R193;
10_state.md R33, R37). -/

namespace Sys2Proof.Laws

open Sys2Proof.Machine

/-- Settles O24: the sample 1 is a reset, whatever the state, and a reset starts from the state of R37. -/
theorem resetSetsEveryRegister : Obligations.ResetSetsEveryRegister := by
  intro s r hr
  rw [step_reset (by simp [rstPort, hr]), takeSample, hr]
  rfl

/-- After a reset `STATUS` shows RDY alone (10_state.md R32). -/
theorem status_applyReset (s : State) : status (applyReset s) = 0b00001#5 := by
  rw [status, rdy, applyReset_ph, applyReset_init, applyReset_fault, applyReset_fcode]
  rfl

/-- The step that finds a word presented latches it and takes it off the client's list (10_state.md R27, R28,
R33). -/
theorem step_takes_word {s : State} {w : CmdWord} (hw : presents s w) :
    ∃ u, step s = .next u ∧ u.cmdl = some w ∧ u.prog = s.prog.tail := by
  obtain ⟨u, hu⟩ := acceptWord_next Config.hardware w (takeWord s)
  have hst : step s = .next u := (step_presents hw).trans hu
  obtain ⟨x, -, hprog⟩ := (commandIsHeldUntilReady s u hst).1 ((accepts_iff s).2 ⟨w, hw⟩)
  exact ⟨u, hst, (commandLatchWriters s u hst (presents_rst hw)).1 w hw, by rw [hprog, List.tail_cons]⟩

/-- Settles O25: at the start of a run and after a reset the SBT is ready, so the word waiting is presented. -/
theorem firstCommandTakenAtOnce : Obligations.FirstCommandTakenAtOnce := by
  refine ⟨rfl, fun s t r hr hst => ?_, fun w ws => ?_, fun s t w ws hr hprog hst ht => ?_⟩
  · obtain rfl := Host.Outcome.next.inj ((step_reset (by simp [rstPort, hr])).symm.trans hst)
    exact status_applyReset _
  · exact step_takes_word ⟨rfl, rfl, rfl⟩
  · obtain rfl := Host.Outcome.next.inj ((step_reset hr).symm.trans hst)
    have hw : presents (applyReset (takeSample s)) w := ⟨rfl, by simp [hprog], ht⟩
    obtain ⟨u, hu, hcmdl, hrest⟩ := step_takes_word hw
    exact ⟨u, hu, hcmdl, by simpa [hprog] using hrest⟩

end Sys2Proof.Laws
end

section
/-! PROOF. Every operation ends: each event leaves one fewer to perform (70_reset_and_hazards.md R208; log 19). -/

namespace Sys2Proof.Laws

open Sys2Proof.Machine

/-- No operation has more events than SEND. -/
theorem stepsLeft_le (s : State) : stepsLeft s ≤ 40 := by
  cases hp : s.ph <;> simp only [stepsLeft, hp] <;> omega

/-- An event of an operation leaves one fewer to perform; the last of a bit leaves those of the bits to come. -/
theorem EventStep.stepsLeft_eq {s t : State} (he : EventStep s t) (h : RegInv s) :
    stepsLeft s = stepsLeft t + 1 := by
  have hcnt (hp : s.ph.inSend = true) : (s.cnt.getD 0#4).toNat < 8 := by
    obtain ⟨-, -, c, hc, hlt⟩ := h.sending hp
    rwa [hc]
  cases he with
  | bClkLo hp | bData hp _ _ | bWLo hp | bClkHi hp =>
    have hlt := hcnt (by rw [hp]; rfl)
    simp [stepsLeft, hp]
    omega
  | bWHi hp v c _ hc =>
    have hsend : s.ph.inSend = true := by rw [hp]; rfl
    have hlt := hcnt hsend
    rw [hc, Option.getD_some] at hlt
    have hend : Sending (35 - 5 * c.toNat) (endBit v c (delay Config.hardware Config.hardware.tBit (takeSample s))) :=
      .endBit v hlt (h.sending hsend).1
    rw [hend.left]
    simp [stepsLeft, hp, hc]
    omega
  | _ hp => simp [stepsLeft, hp]

/-- With no reset to come, an operation runs to `READY`, one event a step; in `READY` none is left. -/
theorem runSteps_stepsLeft {s : State} (h : RegInv s) (hf : s.ph ≠ .faulted) (hrst : s.rst = []) :
    ∃ t, runSteps (stepsLeft s) s = .next t ∧ t.ph = .ready ∧
      t.trace.length = s.trace.length + stepsLeft s := by
  rcases ready_or_faulted_or_busy s.ph with hp | hp | hb
  · have hnone : stepsLeft s = 0 := by simp [stepsLeft, hp]
    exact ⟨s, by rw [hnone, runSteps], hp, by rw [hnone, Nat.add_zero]⟩
  · exact absurd hp hf
  · have hport : rstPort s = false := by simp [rstPort, hrst]
    obtain ⟨u, hu⟩ := step_busy_next h hb hport
    have he : EventStep s u := eventStep_of_busy hu hb hport
    obtain ⟨e, he', -⟩ := he.emits
    obtain ⟨-, -, -, huf⟩ := he.keeps_fault
    have hleft : stepsLeft s = 1 + stepsLeft u := by rw [he.stepsLeft_eq h, Nat.add_comm]
    have hurst : u.rst = [] := by rw [he.rst, hrst, List.tail_nil]
    obtain ⟨t, hrun, hph, htrace⟩ := runSteps_stepsLeft (stepKeepsInv s u h hu) huf hurst
    refine ⟨t, by rw [hleft, runSteps_step hu, hrun], hph, ?_⟩
    rw [htrace, hleft, he', List.length_append, List.length_singleton, Nat.add_assoc]
termination_by stepsLeft s

/-- Settles O40: the samples 0 at its steps do not matter to an operation. -/
theorem operationsEnd : Obligations.OperationsEnd := by
  intro s h hb hq
  have hf : s.ph ≠ .faulted := fun hp => by simp [hp, Phase.busy] at hb
  obtain ⟨t, hrun, hph, htrace⟩ := runSteps_stepsLeft (s := { s with rst := [] }) { h with } hf rfl
  exact ⟨stepsLeft_le s, _, (runSteps_quiet hq hrun).2, hph, htrace, rfl⟩

end Sys2Proof.Laws
end

section
/-! PROOF. The client's sequences come to their end (70_reset_and_hazards.md R197; 44_client_sequences.md R150 to
R158; log 19). -/

namespace Sys2Proof.Laws

open Sys2Proof.Machine

/-- Settles O57: the run performs every command, from an empty TRACE with `FAULT` 0. -/
theorem clientSequencesRunToTheEnd : Obligations.ClientSequencesRunToTheEnd := by
  intro n ops is h
  obtain ⟨t, ht⟩ := clientSequences_perform h
  exact ⟨_, t, ht.run, ⟨List.append_right_eq_self.1 ht.prog.symm, ht.ph⟩, ht.fault, ht.trace⟩

end Sys2Proof.Laws
end

section
/-! PROOF. The least time of each operation, bit by bit and byte by byte (70_reset_and_hazards.md R207; log 11). -/

namespace Sys2Proof.Laws

open Sys2Proof.Machine

/-- Pieces of the same least time add up. -/
theorem minTicks_flatMap {α : Type} {P m : Nat} {f : α → List Event} (hf : ∀ x, minTicks P (f x) = m)
    (xs : List α) : minTicks P (xs.flatMap f) = xs.length * m := by
  induction xs with
  | nil => simp [minTicks]
  | cons x xs ih => rw [List.flatMap_cons, minTicks_append, hf, ih, List.length_cons, Nat.add_one_mul, Nat.add_comm]

/-- A bit is three pin writes and two dwells (40_serializer.md R100). -/
theorem minTicks_bitEvents (P : Nat) (p : Params) (b : Level) :
    minTicks P (bitEvents p b) = 2 * (p.tBit * Config.ticksPerMicro) + 3 * P := by
  simp only [bitEvents, minTicks]
  omega

theorem minTicks_sendEvents (P : Nat) (p : Params) (v : Byte) :
    minTicks P (sendEvents p v) = 16 * (p.tBit * Config.ticksPerMicro) + 24 * P := by
  rw [sendEvents_eq, minTicks_flatMap (minTicks_bitEvents P p), firstBits_length]
  omega

/-- A transaction is its bytes between two writes of STB (41_framer.md R113). -/
theorem minTicks_txnEvents (P : Nat) (p : Params) (bs : List Byte) :
    minTicks P (txnEvents p bs) =
      16 * bs.length * p.tBit * Config.ticksPerMicro + (24 * bs.length + 2) * P := by
  rw [txnEvents, minTicks, minTicks_append, minTicks_flatMap (minTicks_sendEvents P p)]
  simp only [minTicks]
  ring

/-- Settles O58: each operation takes at least its least time. -/
theorem minimumDurations : Obligations.MinimumDurations := by
  intro P hP i
  have hmin (es : List Event) : minTicks P es ≤ ticksFrom i es := minTicks_le hP i es
  refine ⟨fun v => ?_, fun v => hmin [.write .stb v], ?_, fun n => hmin [.delay n], fun bs => ?_, fun n => ?_⟩
  · rw [Nat.mul_assoc, ← minTicks_sendEvents]
    exact hmin _
  · have hidle : minTicks P idleEvents = 4 * P := by
      simp only [idleEvents, minTicks]
      omega
    exact hidle ▸ hmin idleEvents
  · exact minTicks_txnEvents P Config.hardware bs ▸ hmin _
  · have hlen : (addrByte 0 :: List.replicate (2 * n) 0x00#8).length = 1 + 2 * n := by
      rw [List.length_cons, List.length_replicate, Nat.add_comm]
    rw [clearSeq, txn_events, ← hlen, ← minTicks_txnEvents]
    exact hmin _

end Sys2Proof.Laws
end

section
/-! PROOF. The clock dwell of each bit of a SEND, wherever the SEND stands in TRACE (70_reset_and_hazards.md R200,
40_serializer.md R103; log 11). -/

namespace Sys2Proof.Laws

open Sys2Proof.Machine

/-- The events of bit n of a SEND stand from position 5n on (40_serializer.md R101). -/
theorem getElem?_sendEvents (p : Params) (v : Byte) {n k : Nat} (hn : n < 8) (hk : k < 5) :
    (sendEvents p v)[5 * n + k]? = (bitEvents p (v.getLsbD n))[k]? := by
  have hlen : ((firstBits v n).flatMap (bitEvents p)).length = 5 * n := by
    simp [List.length_flatMap, bitEvents]
    omega
  rw [← List.getElem?_take_of_lt (show 5 * n + k < 5 * n + 5 by omega), take_sendEvents p v hn (Nat.le_refl 5),
    List.getElem?_append_right (by omega), hlen, Nat.add_sub_cancel_left, List.getElem?_take_of_lt hk]

/-- The same wherever the SEND stands in a trace. -/
theorem getElem?_trace_sendEvents (es fs : List Event) (p : Params) (v : Byte) {n k : Nat} (hn : n < 8) (hk : k < 5) :
    (es ++ sendEvents p v ++ fs)[es.length + 5 * n + k]? = (bitEvents p (v.getLsbD n))[k]? := by
  rw [List.append_assoc, List.getElem?_append_right (by omega), Nat.add_assoc, Nat.add_sub_cancel_left,
    List.getElem?_append_left (by rw [sendEvents_length]; omega), getElem?_sendEvents p v hn hk]

/-- A list of events takes at least the time of each of them. -/
theorem eventTicks_le_ticksFrom {es : List Event} {k : Nat} {e : Event} (h : es[k]? = some e) (i : Nat) :
    eventTicks (i + k) e ≤ ticksFrom i es := by
  induction es generalizing i k with
  | nil => simp at h
  | cons x es ih =>
    cases k with
    | zero =>
      obtain rfl : x = e := by simpa using h
      exact Nat.le_add_right _ _
    | succ k =>
      have htail := ih (by simpa using h) (i + 1)
      rw [Nat.add_right_comm] at htail
      exact Nat.le_trans htail (Nat.le_add_left _ _)

/-- A delay that stands between two events of a trace keeps them as far apart as it asks (42_control.md R122). -/
theorem delay_le_ticksBetween {es : List Event} {i j k n : Nat} (h : es[k]? = some (.delay n)) (hi : i ≤ k)
    (hj : k < j) : n * Config.ticksPerMicro ≤ ticksBetween es i j := by
  have hget : ((es.drop i).take (j - i))[k - i]? = some (.delay n) := by
    rw [List.getElem?_take_of_lt (by omega), List.getElem?_drop, Nat.add_sub_cancel' hi, h]
  exact Nat.le_trans (Nat.le_add_right _ _) (eventTicks_le_ticksFrom hget i)

/-- Settles O59: the dwell after the DIO write stands in the low half of the bit, the other makes its high half. -/
theorem clockLevelsDwell : Obligations.ClockLevelsDwell := by
  intro es fs v j hj tr b
  have hget (k : Nat) (hk : k < 5) : tr[b + k]? = (bitEvents Config.hardware (v.getLsbD j))[k]? :=
    getElem?_trace_sendEvents es fs Config.hardware v hj hk
  have hlow : tr[b + 2]? = some (.delay Config.hardware.tBit) := hget 2 (by decide)
  have hhigh : tr[b + 4]? = some (.delay Config.hardware.tBit) := hget 4 (by decide)
  exact ⟨hget 0 (by decide), hget 1 (by decide), hget 3 (by decide),
    delay_le_ticksBetween hlow (by omega) (by omega), delay_le_ticksBetween hlow (by omega) (by omega),
    delay_le_ticksBetween hhigh (by omega) (by omega)⟩

end Sys2Proof.Laws
end
